-- ==== Sys2Proof/Word.lean ====
section
/-! DEFINITION. The machine's word types: the byte every register, cell and operand holds, and the index of a general register. -/

namespace Sys2Proof

/-- A byte: 8 bits, an unsigned value 0 to 255; "nothing in this machine is signed" (00_scope.md R7). -/
abbrev Byte := BitVec 8

/-- The index of a general register, 0 to 7: the three bits that `sel` holds (10_state.md R16). An index, not a word: the
machine never adds, shifts or masks it. -/
abbrev RegIdx := Fin 8

end Sys2Proof
end

