-- ==== Sys2Proof/Config.lean ====
section
/-! DEFINITION. What an implementation fixes: the mnemonics that the opcode map `OPC` is a map of, and the sizes of
00_scope.md R5. The spec leaves no value free (93_implementation_defined.md, end of Part 1), so there is no free value here.
The map `OPC` itself, a parameter with a default (00_scope.md R6, decision D1), is `defaultOpc` in Decode.lean. -/

namespace Sys2Proof

/-- The sixteen mnemonics, the domain of the parameter `OPC` (30_encoding.md R54, R55). -/
inductive Mnemonic where
  | halt | init | set | save | mul | prn | pra | add | sub | div | inc | dec | push | pop | call | ret
deriving DecidableEq, Repr

namespace Config

/-- `MEM_SIZE`, "exactly 256 cells" (00_scope.md R5). -/
def memSize : Nat := 256

/-- `SP_RESET` (00_scope.md R5). -/
def spReset : Byte := 0xFF

/-- `PC_RESET` (00_scope.md R5). -/
def pcReset : Byte := 0

end Config

end Sys2Proof
end

