-- ==== Sys2Proof/Syntax.lean ====
section
/-! DEFINITION. The instructions as data: one constructor per row of spec/opcode_table.json, operands as the whole bytes
that follow the opcode (30_encoding.md R50 to R52). -/

namespace Sys2Proof

/-- The closed set of 16 instructions (30_encoding.md R54). An operand is the whole byte; which bytes are legal is
`Instr.wellFormed` (30_encoding.md R52, R53). -/
inductive Instr where
  /-- HALT, format F1 (41_control_and_select.md R80). -/
  | halt
  /-- INIT, format F1 (41_control_and_select.md R81). -/
  | init
  /-- SET `operand1`, format F2, kind `selidx` (41_control_and_select.md R82). -/
  | set (n : Byte)
  /-- SAVE `operand1`, format F2, kind `imm8` (41_control_and_select.md R83). -/
  | save (n : Byte)
  /-- MUL `operand1` `operand2`, format F3, kind `regidx` (42_alu.md R91). -/
  | mul (a b : Byte)
  /-- PRN, format F1 (44_output.md R111). -/
  | prn
  /-- PRA, format F1 (44_output.md R112). -/
  | pra
  /-- ADD `operand1` `operand2`, format F3, kind `regidx` (42_alu.md R92). -/
  | add (a b : Byte)
  /-- SUB `operand1` `operand2`, format F3, kind `regidx`: minuend, subtrahend (42_alu.md R93). -/
  | sub (a b : Byte)
  /-- DIV `operand1` `operand2`, format F3, kind `regidx`: dividend, divisor (42_alu.md R94). -/
  | div (a b : Byte)
  /-- INC, format F1 (42_alu.md R95). -/
  | inc
  /-- DEC, format F1 (42_alu.md R96). -/
  | dec
  /-- PUSH, format F1 (43_stack_and_subroutine.md R101). -/
  | push
  /-- POP, format F1 (43_stack_and_subroutine.md R102). -/
  | pop
  /-- CALL, format F1 (43_stack_and_subroutine.md R103). -/
  | call
  /-- RET, format F1 (43_stack_and_subroutine.md R104). -/
  | ret
deriving DecidableEq, Repr

end Sys2Proof
end

