-- ==== Sys2Proof/Decode.lean ====
section
/-! DEFINITION. The opcode map, the decoder and the encoder (30_encoding.md). Everything is stated for an arbitrary opcode map
`opc`, the spec's parameter `OPC` (R55), and `decode`, `encode` are at the default map of R56. -/

namespace Sys2Proof

/-- The default of the parameter `OPC` (30_encoding.md R56, decision D1: the spec's own choice; log entry 1). -/
def defaultOpc (m : Mnemonic) : Byte :=
  match m with
  | .halt => 0x00
  | .init => 0x01
  | .set => 0x02
  | .save => 0x04
  | .mul => 0x05
  | .prn => 0x06
  | .pra => 0x07
  | .add => 0x08
  | .sub => 0x09
  | .div => 0x0A
  | .inc => 0x0B
  | .dec => 0x0C
  | .push => 0x0D
  | .pop => 0x0E
  | .call => 0x0F
  | .ret => 0x10

/-- The closed table's mnemonics, in its order (30_encoding.md R54, R56). -/
def Mnemonic.all : List Mnemonic :=
  [.halt, .init, .set, .save, .mul, .prn, .pra, .add, .sub, .div, .inc, .dec, .push, .pop, .call, .ret]

/-- How many operand bytes follow the opcode: formats F1, F2, F3 (30_encoding.md R51). -/
def Mnemonic.operandCount (m : Mnemonic) : Nat :=
  match m with
  | .halt => 0
  | .init => 0
  | .set => 1
  | .save => 1
  | .mul => 2
  | .prn => 0
  | .pra => 0
  | .add => 2
  | .sub => 2
  | .div => 2
  | .inc => 0
  | .dec => 0
  | .push => 0
  | .pop => 0
  | .call => 0
  | .ret => 0

/-- "Width = 1 + operand count" (30_encoding.md R50). -/
def Mnemonic.width (m : Mnemonic) : Nat := 1 + m.operandCount

/-- The mnemonic of an instruction. -/
def Instr.mnemonic (i : Instr) : Mnemonic :=
  match i with
  | .halt => .halt
  | .init => .init
  | .set _ => .set
  | .save _ => .save
  | .mul _ _ => .mul
  | .prn => .prn
  | .pra => .pra
  | .add _ _ => .add
  | .sub _ _ => .sub
  | .div _ _ => .div
  | .inc => .inc
  | .dec => .dec
  | .push => .push
  | .pop => .pop
  | .call => .call
  | .ret => .ret

/-- Why bytes decode to no instruction. -/
inductive DecodeError where
  /-- There is no byte. -/
  | noByte
  /-- The first byte is `OPC(m)` for no mnemonic `m` (30_encoding.md R57). -/
  | unknownOpcode (value : Byte)
  /-- The bytes end before the last operand of `m` (30_encoding.md R50). -/
  | missingOperand (m : Mnemonic)
deriving DecidableEq, Repr

/-- `Decode : byte -> option mnemonic` (30_encoding.md R54) under the opcode map `opc`. -/
def decodeOpcodeWith (opc : Mnemonic → Byte) (b : Byte) : Option Mnemonic :=
  Mnemonic.all.find? fun m => opc m == b

/-- `Decode` at the default map (30_encoding.md R54, R56). -/
def decodeOpcode (b : Byte) : Option Mnemonic := decodeOpcodeWith defaultOpc b

/-- Take the operands of `m` from the bytes after its opcode, `operand1` first (30_encoding.md R51); nothing if they end too
soon. Bytes left over are handed back. -/
def takeOperands (m : Mnemonic) (bs : List Byte) : Option (Instr × List Byte) :=
  match m, bs with
  | .halt, bs => some (.halt, bs)
  | .init, bs => some (.init, bs)
  | .set, n :: bs => some (.set n, bs)
  | .set, [] => none
  | .save, n :: bs => some (.save n, bs)
  | .save, [] => none
  | .mul, a :: b :: bs => some (.mul a b, bs)
  | .mul, [_] => none
  | .mul, [] => none
  | .prn, bs => some (.prn, bs)
  | .pra, bs => some (.pra, bs)
  | .add, a :: b :: bs => some (.add a b, bs)
  | .add, [_] => none
  | .add, [] => none
  | .sub, a :: b :: bs => some (.sub a b, bs)
  | .sub, [_] => none
  | .sub, [] => none
  | .div, a :: b :: bs => some (.div a b, bs)
  | .div, [_] => none
  | .div, [] => none
  | .inc, bs => some (.inc, bs)
  | .dec, bs => some (.dec, bs)
  | .push, bs => some (.push, bs)
  | .pop, bs => some (.pop, bs)
  | .call, bs => some (.call, bs)
  | .ret, bs => some (.ret, bs)

/-- The decoder: an instruction and the bytes after it, or the reason there is none. Total on any bytes. -/
def decodeWith (opc : Mnemonic → Byte) (bytes : List Byte) : Except DecodeError (Instr × List Byte) :=
  match bytes with
  | [] => .error .noByte
  | b :: rest =>
    match decodeOpcodeWith opc b with
    | none => .error (.unknownOpcode b)
    | some m =>
      match takeOperands m rest with
      | none => .error (.missingOperand m)
      | some r => .ok r

/-- The decoder at the default map. -/
def decode (bytes : List Byte) : Except DecodeError (Instr × List Byte) := decodeWith defaultOpc bytes

/-- The operand bytes of an instruction, in increasing address order (30_encoding.md R51). -/
def Instr.operands (i : Instr) : List Byte :=
  match i with
  | .halt => []
  | .init => []
  | .set n => [n]
  | .save n => [n]
  | .mul a b => [a, b]
  | .prn => []
  | .pra => []
  | .add a b => [a, b]
  | .sub a b => [a, b]
  | .div a b => [a, b]
  | .inc => []
  | .dec => []
  | .push => []
  | .pop => []
  | .call => []
  | .ret => []

/-- The bytes of an instruction: the opcode at the lowest address, then the operands (30_encoding.md R50, R51). -/
def encodeWith (opc : Mnemonic → Byte) (i : Instr) : List Byte := opc i.mnemonic :: i.operands

/-- The encoder at the default map. -/
def encode (i : Instr) : List Byte := encodeWith defaultOpc i

/-- The three bytes (the longest instruction) of an opcode-table word: bit 0 of `w` is the least significant bit of the first
byte, bits 15 to 8 are the second byte; every bit at or above `nbits` is 0. -/
def tableBytes (nbits w : Nat) : List Byte :=
  let v := w % 2 ^ nbits
  [BitVec.ofNat 8 v, BitVec.ofNat 8 (v / 256), BitVec.ofNat 8 (v / 65536)]

/-- The instruction the decoder reads from an opcode-table word; none where it refuses. -/
def decodeTableWord (nbits w : Nat) : Option Instr :=
  match decode (tableBytes nbits w) with
  | .ok (i, _) => some i
  | .error _ => none

end Sys2Proof
end

