-- ==== Sys2Proof/Machine/Flags.lean ====
section
/-! DEFINITION. The machine has no flag, no condition code and no predicate: "The overflow policy is the wrap alone"
(10_state.md R21, 42_alu.md R97). This file holds that wrap, `mask8`, and nothing else: there is no flag to compute. -/

namespace Sys2Proof.Machine

/-- `mask8(v) = v mod 256` for any integer `v`, the mathematical modulo with a result in 0 to 255 also for a negative `v`
(00_scope.md R7). -/
def mask8 (v : Int) : Byte := BitVec.ofNat 8 (v % 256).toNat

end Sys2Proof.Machine
end

