-- ==== Sys2Proof/Machine/State.lean ====
section
/-! DEFINITION. The complete state of one Engine (10_state.md R10), the reasons a step can stop, and the state after reset
(10_state.md R25). -/

namespace Sys2Proof.Machine

/-- The eight general registers, "an explicit structure with named fields" (10_state.md R11). Read and written only through
`GeneralRegs.get` and `GeneralRegs.set` (Ops.lean). -/
structure GeneralRegs where
  r0 : Byte
  r1 : Byte
  r2 : Byte
  r3 : Byte
  r4 : Byte
  r5 : Byte
  r6 : Byte
  r7 : Byte
deriving DecidableEq, Repr

/-- The Engine state: two states, `Halted` terminal (10_state.md R17). -/
inductive RunState where
  | running
  | halted
deriving DecidableEq, Repr

/-- The two faults of the machine and the values each records (60_exceptions.md R120 to R122). Taking one is a next state. -/
inductive FaultRecord where
  /-- `UnknownOpcode(address, value)`: the address of the byte and the byte (60_exceptions.md R121). -/
  | unknownOpcode (address value : Byte)
  /-- `DivisionByZero(dividend_register, divisor_register)`: the two register indices (60_exceptions.md R122). -/
  | divisionByZero (dividendRegister divisorRegister : RegIdx)
deriving DecidableEq, Repr

/-- The two output events, each carrying the 8-bit `x[sel]` (44_output.md R110). -/
inductive OutputEvent where
  /-- `Printed(integer)` (44_output.md R111). -/
  | printed (v : Byte)
  /-- `PrintedChar(character)`, the code point only (44_output.md R112; `CHARSET` stays open). -/
  | printedChar (c : Byte)
deriving DecidableEq, Repr

/-- What a step hands back (40_engine.md R66). -/
inductive Status where
  | continued
  | halted
  | faulted (reason : FaultRecord)
deriving DecidableEq, Repr

/-- Memory: the cells that are not 0, as pairs of address and byte in strictly rising order of address. An address that is
not listed reads 0, the reset content the spec gives every cell (20_memory.md R30). -/
abbrev Memory := List Host.Cell

/-- The canonical form of a memory: every address is one of the 256 (20_memory.md R30), no listed byte is 0, and addresses
rise strictly, so that equal memories are equal lists. -/
def Memory.wf (m : Memory) : Bool :=
  match m with
  | [] => true
  | c :: rest => decide (c.1 < Config.memSize) && c.2 != 0 && rest.all (fun d => decide (c.1 < d.1)) && Memory.wf rest

/-- The complete state of one Engine instance (10_state.md R10, R24). -/
structure State where
  /-- `x[0]` to `x[7]` (10_state.md R11). -/
  regs : GeneralRegs
  /-- `program_counter`, the address of the opcode of the instruction about to run (10_state.md R13). -/
  pc : Byte
  /-- `stack_pointer` (10_state.md R15). -/
  sp : Byte
  /-- `selected_register` (10_state.md R16). -/
  sel : RegIdx
  /-- The Engine state (10_state.md R17). -/
  run : RunState
  /-- The latched fault (10_state.md R18). -/
  fault : Option FaultRecord
  /-- The output events so far, oldest first (10_state.md R19). -/
  out : List OutputEvent
  /-- A `step()` has been called since reset (10_state.md R20). -/
  started : Bool
  /-- The 256 cells (20_memory.md R30). -/
  mem : Memory
deriving DecidableEq, Repr

/-- The reasons a step could stop as a fault of the MODEL. There is none: both faults of the hardware are next states
(40_engine.md R68, `FaultRecord`), and every access is to one of the 256 cells by construction (20_memory.md R31). Log
entry 16, safe. -/
inductive Fault
deriving DecidableEq, Repr

/-- The reasons an operation is refused: the closed list of 40_engine.md R68, each a situation the source leaves undefined.
A refusal is the spec's own outcome for it (decision D16), and is safe: it errs toward unprovable. -/
inductive Refusal where
  /-- An instruction without a meaning: raised by no arm of `exec` (every instruction has its meaning). Safe. -/
  | notModelled (mnemonic : String)
  /-- `U_OPERAND_FETCH`: an operand byte lies above address 255 (R69). Raised by SET, SAVE, MUL, ADD, SUB, DIV and by the
  fetch of one of them. Safe. -/
  | uOperandFetch
  /-- `U_PC_ADVANCE`: the instruction would advance `pc` above 255 (R69). Raised by every instruction that advances `pc`: all
  but HALT, CALL and RET. Safe. -/
  | uPcAdvance
  /-- `U_SEL_RANGE`: SET with an operand byte 8 to 255 (30_encoding.md R53). Raised by SET. Safe. -/
  | uSelRange
  /-- `U_REG_INDEX`: an operand byte 8 to 255 (30_encoding.md R53). Raised by MUL, ADD, SUB, DIV. Safe. -/
  | uRegIndex
  /-- `U_SP_LOW`: a push with `sp = 0` (43_stack_and_subroutine.md R100). Raised by PUSH and CALL. Safe. -/
  | uSpLow
  /-- `U_SP_HIGH`: a pop with `sp = 255` (43_stack_and_subroutine.md R100). Raised by POP and RET. Safe. -/
  | uSpHigh
  /-- `U_LOAD_ADDR`: the host's `load` with an address outside 0 to 255 (R72). Raised by `load`. Safe. -/
  | uLoadAddr
  /-- `U_LOAD_LATE`: the host's `load` after the first step (R72). Raised by `load`. Safe. -/
  | uLoadLate
deriving DecidableEq, Repr

/-- The outcome of a step or of a host operation that can be refused. -/
abbrev StepOutcome := Host.Outcome State Fault Refusal

/-- The state after reset: the construction of an Engine (10_state.md R25, 70_reset_and_hazards.md R140). The spec gives
every value. -/
def State.reset : State where
  regs := { r0 := 0, r1 := 0, r2 := 0, r3 := 0, r4 := 0, r5 := 0, r6 := 0, r7 := 0 }
  pc := Config.pcReset
  sp := Config.spReset
  sel := 0
  run := .running
  fault := none
  out := []
  started := false
  mem := []

end Sys2Proof.Machine
end

