-- ==== Sys2Proof/Machine/Ops.lean ====
section
/-! DEFINITION. The named operations over registers, memory, the program counter, the stack, the output stream and the fault
record that the meanings are made of. Each register and the memory is read and written here and nowhere else. -/

namespace Sys2Proof.Machine

/-! ### General registers (10_state.md R11, R12) -/

/-- Read general register `i`. -/
def GeneralRegs.get (r : GeneralRegs) (i : RegIdx) : Byte :=
  match i with
  | 0 => r.r0
  | 1 => r.r1
  | 2 => r.r2
  | 3 => r.r3
  | 4 => r.r4
  | 5 => r.r5
  | 6 => r.r6
  | 7 => r.r7

/-- Write general register `i`. -/
def GeneralRegs.set (r : GeneralRegs) (i : RegIdx) (v : Byte) : GeneralRegs :=
  match i with
  | 0 => { r with r0 := v }
  | 1 => { r with r1 := v }
  | 2 => { r with r2 := v }
  | 3 => { r with r3 := v }
  | 4 => { r with r4 := v }
  | 5 => { r with r5 := v }
  | 6 => { r with r6 := v }
  | 7 => { r with r7 := v }

/-- `x[i]` (00_scope.md R8). -/
def State.x (s : State) (i : RegIdx) : Byte := s.regs.get i

/-- `x[i] <- v` (00_scope.md R8). -/
def State.setX (s : State) (i : RegIdx) (v : Byte) : State := { s with regs := s.regs.set i v }

/-- `x[sel]`, the selected register (10_state.md R16). -/
def State.selected (s : State) : Byte := s.x s.sel

/-- `x[sel] <- v`. -/
def State.setSelected (s : State) (v : Byte) : State := s.setX s.sel v

/-- `sel <- i` (10_state.md R16). -/
def State.setSel (s : State) (i : RegIdx) : State := { s with sel := i }

/-! ### Memory (20_memory.md R30 to R33) -/

/-- The byte at an address: the listed one, and 0 where none is listed (20_memory.md R30). -/
def Memory.read (m : Memory) (a : Nat) : Byte :=
  match m with
  | [] => 0
  | c :: rest => if c.1 = a then c.2 else Memory.read rest a

/-- The memory without an entry at an address. -/
def Memory.erase (m : Memory) (a : Nat) : Memory :=
  match m with
  | [] => []
  | c :: rest => if c.1 = a then Memory.erase rest a else c :: Memory.erase rest a

/-- The memory with an entry put before the first one of a greater address. -/
def Memory.insert (m : Memory) (a : Nat) (v : Byte) : Memory :=
  match m with
  | [] => [(a, v)]
  | c :: rest => if a < c.1 then (a, v) :: c :: rest else c :: Memory.insert rest a v

/-- Put a byte at an address, keeping the canonical form: a 0 is what an unlisted address reads as, so it is not listed. -/
def Memory.write (m : Memory) (a : Nat) (v : Byte) : Memory :=
  if v = 0 then m.erase a else (m.erase a).insert a v

/-- `MemRead(addr, 1)`: the byte in the cell, without side effect (20_memory.md R32). A byte address is one of the 256 by
construction (20_memory.md R31). -/
def State.memRead (s : State) (addr : Byte) : Byte := s.mem.read addr.toNat

/-- `MemWrite(addr, 1, v)`: `mem[addr] <- mask8(v)` for a non-negative integer `v`, nothing else changed (20_memory.md
R33). -/
def State.memWrite (s : State) (addr : Byte) (v : Nat) : State :=
  { s with mem := s.mem.write addr.toNat (mask8 v) }

/-- The bytes of memory from address `a` on, at most `n` of them and none above address 255. -/
def Memory.bytesFrom (m : Memory) (a n : Nat) : List Byte :=
  match n with
  | 0 => []
  | k + 1 => if a ≤ 255 then m.read a :: Memory.bytesFrom m (a + 1) k else []

/-- The opcode byte at `pc` (20_memory.md R34). -/
def State.opcodeByte (s : State) : Byte := s.memRead s.pc

/-- The bytes after the opcode that an instruction could take as operands: those at `pc + 1` and `pc + 2` that lie in memory
(20_memory.md R34, R35). -/
def State.operandBytes (s : State) : List Byte := s.mem.bytesFrom (s.pc.toNat + 1) 2

/-- Put bytes into memory at `a`, `a + 1`, …, as far as they lie at or below address 255. -/
def Memory.placeBytes (m : Memory) (a : Nat) (bs : List Byte) : Memory :=
  match bs with
  | [] => m
  | b :: rest => if a ≤ 255 then Memory.placeBytes (m.write a b) (a + 1) rest else m

/-! ### Program counter (10_state.md R13, R14) -/

/-- The end of an instruction that advances `pc` by its width: `pc` never wraps, an advance above 255 is refused, and then
nothing of the instruction has happened (40_engine.md R69, R70 item 7). -/
def advance (width : Nat) (s : State) : StepOutcome :=
  if 255 < s.pc.toNat + width then .refused .uPcAdvance
  else .next { s with pc := BitVec.ofNat 8 (s.pc.toNat + width) }

/-- `pc <- target`, with no implicit `+1` (43_stack_and_subroutine.md R105). -/
def jump (target : Byte) (s : State) : StepOutcome := .next { s with pc := target }

/-! ### The stack (43_stack_and_subroutine.md R100) -/

/-- The pre-decrement store: `sp` goes down by one and the byte `mask8(v)` is written there; refused at `sp = 0`. The rest of
the instruction runs in the state after the push. -/
def pushing (v : Nat) (s : State) (rest : State → StepOutcome) : StepOutcome :=
  if s.sp = 0 then .refused .uSpLow
  else rest ({ s with sp := s.sp - 1 }.memWrite (s.sp - 1) v)

/-- The post-increment load: the byte at `sp` is read and `sp` goes up by one; refused at `sp = 255`. The rest of the
instruction gets the byte and the state after the pop. -/
def popping (s : State) (rest : Byte → State → StepOutcome) : StepOutcome :=
  if s.sp = 255 then .refused .uSpHigh
  else rest (s.memRead s.sp) { s with sp := s.sp + 1 }

/-! ### Output (10_state.md R19) -/

/-- `emit e`: append an event to the output stream. -/
def State.emit (s : State) (e : OutputEvent) : State := { s with out := s.out ++ [e] }

/-! ### The start of a step (10_state.md R20) -/

/-- `started <- true`. -/
def State.start (s : State) : State := { s with started := true }

/-! ### Halting and faults (60_exceptions.md R124) -/

/-- `run <- Halted` (10_state.md R17). -/
def State.halt (s : State) : State := { s with run := .halted }

/-- Taking a fault, the one operation for both: write the record, halt, and nothing more; `pc` stays at the faulting
instruction (60_exceptions.md R124). There is no return from a fault (60_exceptions.md R126): only reset leaves `Halted`. -/
def State.takeFault (s : State) (f : FaultRecord) : State := { s with fault := some f, run := .halted }

/-- `terminal_status(run, fault)` (40_engine.md R66). -/
def terminalStatus (fault : Option FaultRecord) : Status :=
  match fault with
  | none => .halted
  | some f => .faulted f

/-- The status that a step ending in this state hands back: `continued` while the Engine is `Running`, else the terminal
status (40_engine.md R66, log entry 13). -/
def State.status (s : State) : Status :=
  match s.run with
  | .running => .continued
  | .halted => terminalStatus s.fault

end Sys2Proof.Machine
end

