-- ==== Sys2Proof/Machine/Operands.lean ====
section
/-! DEFINITION. The operand forms (30_encoding.md R52): that the operand bytes lie in memory, an index operand, and the pair of
register operands of a three-byte instruction, each checked in the order of 40_engine.md R70. -/

namespace Sys2Proof.Machine

/-- Check 3 of 40_engine.md R70: the `count` operand bytes after `pc` lie at or below address 255, else the step is refused
(R69 (a)). -/
def needOperands (count : Nat) (s : State) (rest : StepOutcome) : StepOutcome :=
  if 255 < s.pc.toNat + count then .refused .uOperandFetch else rest

/-- A `selidx` or `regidx` operand byte as a register index: the whole byte, legal only 0 to 7, never masked to three bits
(30_encoding.md R53). -/
def toIndex (n : Byte) : Option RegIdx := if h : n.toNat < 8 then some ⟨n.toNat, h⟩ else none

/-- The prologue `FetchAB` that MUL, ADD, SUB and DIV share (42_alu.md R90): both operand bytes in memory, both legal register
indices; the rest of the instruction gets the two indices. -/
def fetchAB (a b : Byte) (s : State) (rest : RegIdx → RegIdx → StepOutcome) : StepOutcome :=
  needOperands 2 s <|
    match toIndex a, toIndex b with
    | some i, some j => rest i j
    | none, _ => .refused .uRegIndex
    | some _, none => .refused .uRegIndex

end Sys2Proof.Machine
end

