-- ==== Sys2Proof/Machine/Alu.lean ====
section
/-! DEFINITION. MUL, ADD, SUB, DIV, INC, DEC (42_alu.md): exact on integers, then `mask8` (42_alu.md R97). -/

namespace Sys2Proof.Machine

/-- `mask8(va * vb)` (42_alu.md R97). -/
def aluMul (va vb : Byte) : Byte := mask8 ((va.toNat : Int) * vb.toNat)

/-- `mask8(va + vb)` (42_alu.md R97). -/
def aluAdd (va vb : Byte) : Byte := mask8 ((va.toNat : Int) + vb.toNat)

/-- `mask8(va - vb)` (42_alu.md R97). -/
def aluSub (va vb : Byte) : Byte := mask8 ((va.toNat : Int) - vb.toNat)

/-- `va div vb` for `vb > 0`, the floor of the exact quotient (42_alu.md R97). -/
def aluDiv (va vb : Byte) : Byte := BitVec.ofNat 8 (va.toNat / vb.toNat)

/-- `mask8(v + 1)` (42_alu.md R97). -/
def aluInc (v : Byte) : Byte := mask8 ((v.toNat : Int) + 1)

/-- `mask8(v - 1)` (42_alu.md R97). -/
def aluDec (v : Byte) : Byte := mask8 ((v.toNat : Int) - 1)

/-- What MUL, ADD and SUB share: both sources are read, then `x[sel]` is written and `pc` advances by 3 (42_alu.md R90). -/
def binary (op : Byte → Byte → Byte) (a b : Byte) (s : State) : StepOutcome :=
  fetchAB a b s fun i j => advance 3 (s.setSelected (op (s.x i) (s.x j)))

/-- MUL (42_alu.md R91). -/
def execMul (a b : Byte) (s : State) : StepOutcome := binary aluMul a b s

/-- ADD (42_alu.md R92). -/
def execAdd (a b : Byte) (s : State) : StepOutcome := binary aluAdd a b s

/-- SUB (42_alu.md R93): the register named first minus the register named second. -/
def execSub (a b : Byte) (s : State) : StepOutcome := binary aluSub a b s

/-- DIV (42_alu.md R94): a divisor of 0 takes the fault, before the `pc` check (40_engine.md R70 item 5), and writes
nothing else. -/
def execDiv (a b : Byte) (s : State) : StepOutcome :=
  fetchAB a b s fun i j =>
    if s.x j = 0 then .next (s.takeFault (.divisionByZero i j))
    else advance 3 (s.setSelected (aluDiv (s.x i) (s.x j)))

/-- INC (42_alu.md R95). -/
def execInc (s : State) : StepOutcome := advance 1 (s.setSelected (aluInc s.selected))

/-- DEC (42_alu.md R96). -/
def execDec (s : State) : StepOutcome := advance 1 (s.setSelected (aluDec s.selected))

end Sys2Proof.Machine
end

