-- ==== Sys2Proof/Machine/ControlSelect.lean ====
section
/-! DEFINITION. HALT, INIT, SET, SAVE (41_control_and_select.md). -/

namespace Sys2Proof.Machine

/-- HALT (41_control_and_select.md R80): `run <- Halted`; `pc` stays (decision D3, log entry 5). -/
def execHalt (s : State) : StepOutcome := .next s.halt

/-- INIT (41_control_and_select.md R81): `sel <- 0`. -/
def execInit (s : State) : StepOutcome := advance 1 (s.setSel 0)

/-- SET (41_control_and_select.md R82): the operand byte itself becomes `sel`; 8 to 255 is refused (30_encoding.md R53). -/
def execSet (n : Byte) (s : State) : StepOutcome :=
  needOperands 1 s <|
    match toIndex n with
    | some i => advance 2 (s.setSel i)
    | none => .refused .uSelRange

/-- SAVE (41_control_and_select.md R83): `x[sel] <- operand1`. -/
def execSave (n : Byte) (s : State) : StepOutcome := needOperands 1 s <| advance 2 (s.setSelected n)

end Sys2Proof.Machine
end

