-- ==== Sys2Proof/Machine/Output.lean ====
section
/-! DEFINITION. PRN, PRA (44_output.md). -/

namespace Sys2Proof.Machine

/-- PRN (44_output.md R111): emit `Printed(x[sel])`. -/
def execPrn (s : State) : StepOutcome := advance 1 (s.emit (.printed s.selected))

/-- PRA (44_output.md R112): emit `PrintedChar(x[sel])`, every code, printable or not. -/
def execPra (s : State) : StepOutcome := advance 1 (s.emit (.printedChar s.selected))

end Sys2Proof.Machine
end

