-- ==== Sys2Proof/Machine/Stack.lean ====
section
/-! DEFINITION. PUSH, POP, CALL, RET (43_stack_and_subroutine.md). -/

namespace Sys2Proof.Machine

/-- PUSH (43_stack_and_subroutine.md R101): decrement `sp`, write `x[sel]` there. -/
def execPush (s : State) : StepOutcome := pushing s.selected.toNat s (advance 1)

/-- POP (43_stack_and_subroutine.md R102): read the cell at `sp` into `x[sel]`, increment `sp`. -/
def execPop (s : State) : StepOutcome := popping s fun v t => advance 1 (t.setSelected v)

/-- CALL (43_stack_and_subroutine.md R103): push `pc + 1` (masked by the memory write, so 0 at address 255, decision D14),
then `pc <- x[sel]`, the value before the write. -/
def execCall (s : State) : StepOutcome := pushing (s.pc.toNat + 1) s (jump s.selected)

/-- RET (43_stack_and_subroutine.md R104): pop the top of the stack into `pc`. -/
def execRet (s : State) : StepOutcome := popping s jump

end Sys2Proof.Machine
end

