-- ==== Sys2Proof/Machine/Engine.lean ====
section
/-! DEFINITION. The fetch-execute engine for an arbitrary opcode map (40_engine.md R67), and placing an instruction where it
is fetched. -/

namespace Sys2Proof.Machine

/-- `step()` under the opcode map `opc` (40_engine.md R67): `started` is set; a halted Engine does nothing more (R71); else
the opcode at `pc` is looked up, an unknown one takes the fault (60_exceptions.md R121), an instruction whose operands do not
all lie in memory is refused (R69 (a)), and any other runs. The checks stand in the order of R70. -/
def stepWith (opc : Mnemonic → Byte) (s : State) : StepOutcome :=
  match s.run with
  | .halted => .next s.start
  | .running =>
    match decodeOpcodeWith opc s.opcodeByte with
    | none => .next (s.start.takeFault (.unknownOpcode s.pc s.opcodeByte))
    | some m =>
      match takeOperands m s.operandBytes with
      | none => .refused .uOperandFetch
      | some (i, _) => exec i s.start

/-- The state with the bytes of an opcode-table word placed at `pc`, `pc + 1`, `pc + 2` (those that lie in memory), and the
Engine `Running` with no fault latched, so that the next step fetches them (log entry 15). -/
def placeAtPc (s : State) (bytes : List Byte) : State :=
  { s with mem := s.mem.placeBytes s.pc.toNat bytes, run := .running, fault := none }

end Sys2Proof.Machine
end

