-- ==== Sys2Proof/Machine/Step.lean ====
section
/-! DEFINITION. One step of the machine under the default opcode map, and the state in which the next step fetches a given
word. Both only call Engine.lean. -/

namespace Sys2Proof.Machine

/-- `step()` (40_engine.md R67) under the default opcode map (30_encoding.md R56). Its status is `State.status` of the state it
ends in. -/
def step (s : State) : Host.Outcome State Fault Refusal := stepWith defaultOpc s

/-- The state with an opcode-table word stored where `step` fetches its next instruction (log entry 15). -/
def State.withFetchWord (s : State) (nbits w : Nat) : State := placeAtPc s (tableBytes nbits w)

end Sys2Proof.Machine
end

