-- ==== Sys2Proof/Machine/HostOps.lean ====
section
/-! DEFINITION. The host's operations on the core other than `step` (40_engine.md R65): reset, load, consume output; and the
Driver's loop with the end of a run (40_engine.md R73, R74). -/

namespace Sys2Proof.Machine

/-- reset, in whatever state it is applied (70_reset_and_hazards.md R141): the same as constructing a new Engine. -/
def hostReset (_ : State) : State := State.reset

/-- `load(address, value)`, also `poke` (40_engine.md R72): one cell gets `mask8(value)`. Refused once a step has been called,
and for an address outside 0 to 255; where both hold, the late load is named (log entry 14). -/
def load (address : Int) (value : Nat) (s : State) : StepOutcome :=
  if s.started then .refused .uLoadLate
  else if 0 ≤ address ∧ address ≤ 255 then .next (s.memWrite (BitVec.ofNat 8 address.toNat) value)
  else .refused .uLoadAddr

/-- The load collaborator's `load(bytes, base_address)`: `load(base_address + i, bytes[i])` for `i` from 0 (40_engine.md
R72). -/
def loadBytes (base : Int) (values : List Nat) (s : State) : StepOutcome :=
  match values with
  | [] => .next s
  | v :: rest =>
    match load base v s with
    | .next t => loadBytes (base + 1) rest t
    | .fault f => .fault f
    | .refused r => .refused r

/-- Consume output: the host reads the events, oldest first; reading does not alter the core (40_engine.md R75). -/
def consumeOutput (s : State) : List OutputEvent × State := (s.out, s)

/-- How a run under a step budget ends (40_engine.md R73, R74). -/
inductive RunEnd where
  /-- A step returned a terminal status: the final state and that status. -/
  | ended (final : State) (status : Status)
  /-- A step was refused: the run has no final state. -/
  | refused (reason : Refusal)
  /-- The budget ran out in this state: not a state of the machine, only the Driver's. -/
  | outOfBudget (s : State)
deriving DecidableEq, Repr

/-- The Driver: call `step()` until it returns a terminal status, at most `budget` times (40_engine.md R73). -/
def drive (budget : Nat) (s : State) : RunEnd :=
  match budget with
  | 0 => .outOfBudget s
  | k + 1 =>
    match step s with
    | .refused r => .refused r
    | .fault f => nomatch f
    | .next t =>
      match t.status with
      | .continued => drive k t
      | .halted => .ended t .halted
      | .faulted f => .ended t (.faulted f)

end Sys2Proof.Machine
end

