-- ==== Sys2Proof/WellFormed.lean ====
section
/-! DEFINITION. Which operand bytes the spec gives a meaning: an index operand is 0 to 7 (30_encoding.md R52, R53). -/

namespace Sys2Proof

/-- The byte names a general register: 0 to 7, every bit taking part in its value (30_encoding.md R52, R58). -/
def legalIndex (n : Byte) : Bool := decide (n.toNat ≤ 7)

/-- Every `selidx` and `regidx` operand is legal; an `imm8` operand always is (30_encoding.md R52). An instruction that is not
well formed still decodes, and its meaning refuses it by the spec's reason (30_encoding.md R53). -/
def Instr.wellFormed (i : Instr) : Bool :=
  match i with
  | .halt => true
  | .init => true
  | .set n => legalIndex n
  | .save _ => true
  | .mul a b => legalIndex a && legalIndex b
  | .prn => true
  | .pra => true
  | .add a b => legalIndex a && legalIndex b
  | .sub a b => legalIndex a && legalIndex b
  | .div a b => legalIndex a && legalIndex b
  | .inc => true
  | .dec => true
  | .push => true
  | .pop => true
  | .call => true
  | .ret => true

end Sys2Proof
end

