-- ==== Sys2Proof/Safety.lean ====
section
/-! DEFINITION. The words the claims are stated in: what an outcome is, which parts of a state an operation leaves alone, the
invariant of every reachable state (40_engine.md R77), and when the spec defines a step (40_engine.md R68 to R70). -/

namespace Sys2Proof.Machine

/-- The next state of an outcome, if it has one. -/
def nextOf (o : StepOutcome) : Option State :=
  match o with
  | .next t => some t
  | .fault _ => none
  | .refused _ => none

/-- The reason of a refused outcome. -/
def refusalOf (o : StepOutcome) : Option Refusal :=
  match o with
  | .next _ => none
  | .fault _ => none
  | .refused r => some r

/-- The elements of the state (10_state.md R10). -/
inductive Element where
  | regs | pc | sp | sel | run | fault | out | started | mem
deriving DecidableEq, Repr

/-- Every element of the state that is not listed is the same before and after. -/
def SameExcept (changed : List Element) (s t : State) : Prop :=
  (.regs ∉ changed → t.regs = s.regs) ∧ (.pc ∉ changed → t.pc = s.pc) ∧ (.sp ∉ changed → t.sp = s.sp) ∧
  (.sel ∉ changed → t.sel = s.sel) ∧ (.run ∉ changed → t.run = s.run) ∧ (.fault ∉ changed → t.fault = s.fault) ∧
  (.out ∉ changed → t.out = s.out) ∧ (.started ∉ changed → t.started = s.started) ∧ (.mem ∉ changed → t.mem = s.mem)

/-- An instruction has put `v mod 256` in the selected register, advanced `pc` by its width, changed nothing else, and its step
returns `Continue`: what SAVE and the arithmetic instructions do when they complete (10_state.md R12, 42_alu.md R97). -/
def SelectedBecomes (s t : State) (v : Int) (width : Nat) : Prop :=
  ((t.x s.sel).toNat : Int) = v % 256 ∧ (∀ k, k ≠ s.sel → t.x k = s.x k) ∧ t.pc.toNat = s.pc.toNat + width ∧
  SameExcept [.regs, .pc] s t ∧ (s.run = .running → t.status = .continued)

/-- What the rules of MUL, ADD and SUB say, with `result` the exact result on the two source values (42_alu.md R90 to R93):
the encoding, the effect, and the three refusals with the addresses at which each is the outcome. -/
def PairRule (form : Byte → Byte → Instr) (opcode : Byte) (result : Int → Int → Int) : Prop :=
  ∀ (s : State) (a b : Byte),
    encode (form a b) = [opcode, a, b] ∧
    (∀ i j : RegIdx, a.toNat = i.val → b.toNat = j.val → s.pc.toNat ≤ 252 →
      ∃ t, exec (form a b) s = .next t ∧ SelectedBecomes s t (result (s.x i).toNat (s.x j).toNat) 3) ∧
    (254 ≤ s.pc.toNat → exec (form a b) s = .refused .uOperandFetch) ∧
    (s.pc.toNat ≤ 253 → 7 < a.toNat ∨ 7 < b.toNat → exec (form a b) s = .refused .uRegIndex) ∧
    (s.pc.toNat = 253 → a.toNat ≤ 7 → b.toNat ≤ 7 → exec (form a b) s = .refused .uPcAdvance)

/-- What the rules of INC and DEC say, with `result` the exact result on the value of the selected register (42_alu.md R95,
R96). -/
def UnaryRule (form : Instr) (opcode : Byte) (result : Int → Int) : Prop :=
  ∀ s : State,
    encode form = [opcode] ∧
    (s.pc.toNat ≤ 254 → ∃ t, exec form s = .next t ∧ SelectedBecomes s t (result (s.x s.sel).toNat) 1) ∧
    (s.pc.toNat = 255 → exec form s = .refused .uPcAdvance)

/-- What the rules of PRN and PRA say, with `event` the event that carries the selected register (44_output.md R111,
R112). -/
def OutputRule (form : Instr) (opcode : Byte) (event : Byte → OutputEvent) : Prop :=
  ∀ s : State,
    encode form = [opcode] ∧
    (s.pc.toNat ≤ 254 → ∃ t, exec form s = .next t ∧ t.out = s.out ++ [event (s.x s.sel)] ∧
      t.pc.toNat = s.pc.toNat + 1 ∧ SameExcept [.out, .pc] s t ∧ (s.run = .running → t.status = .continued)) ∧
    (s.pc.toNat = 255 → exec form s = .refused .uPcAdvance)

/-- The part of the invariant that says how a state is held: memory is in the model's canonical form (log entry 18, a choice of
the model), and a fault is latched only in a halted Engine (10_state.md R18, 40_engine.md R77). That every register, cell and
pointer is a byte and `sel` is 0 to 7 holds by their types. -/
def State.Inv (s : State) : Prop := s.mem.wf = true ∧ (s.fault ≠ none → s.run = .halted)

/-- The invariant of every reachable state (40_engine.md R77): `State.Inv`, and a halted Engine has been stepped, its `started`
being "already true" (40_engine.md R71). -/
def State.EngineInv (s : State) : Prop := s.Inv ∧ (s.run = .halted → s.started = true)

/-- The states reachable from reset by the host's loads and resets and by defined steps (40_engine.md R65, R77). -/
inductive Reachable : State → Prop where
  | reset : Reachable State.reset
  | resetAgain (s : State) : Reachable s → Reachable (hostReset s)
  | load (s t : State) (address : Int) (value : Nat) : Reachable s → load address value s = .next t → Reachable t
  | step (s t : State) : Reachable s → step s = .next t → Reachable t

/-- What the opcode byte at `pc` decodes to under the default map. -/
def State.mnemonicAtPc (s : State) : Option Mnemonic := decodeOpcode s.opcodeByte

/-- The byte at `pc + k`. -/
def State.codeByte (s : State) (k : Nat) : Byte := s.mem.read (s.pc.toNat + k)

/-- The value of the general register that an operand byte names, for a legal index; 0 otherwise (never used there). -/
def State.xOf (s : State) (n : Byte) : Byte := if h : n.toNat < 8 then s.x ⟨n.toNat, h⟩ else 0

/-- The mnemonics whose instruction pushes (43_stack_and_subroutine.md R100). -/
def pushers : List Mnemonic := [.push, .call]

/-- The mnemonics whose instruction pops (43_stack_and_subroutine.md R100). -/
def poppers : List Mnemonic := [.pop, .ret]

/-- The mnemonics with two register-index operands (30_encoding.md R52). -/
def pairForms : List Mnemonic := [.mul, .add, .sub, .div]

/-- The mnemonics whose instruction advances `pc` by its width: all but HALT, CALL and RET (40_engine.md R69 (b)). -/
def advancers : List Mnemonic :=
  [.init, .set, .save, .mul, .prn, .pra, .add, .sub, .div, .inc, .dec, .push, .pop]

/-- The operands of the instruction `m` at `pc` are legal (30_encoding.md R53). -/
abbrev State.operandsLegal (s : State) (m : Mnemonic) : Prop :=
  (m = .set → (s.codeByte 1).toNat ≤ 7) ∧ (m ∈ pairForms → (s.codeByte 1).toNat ≤ 7 ∧ (s.codeByte 2).toNat ≤ 7)

/-- The instruction `m` at `pc` is a DIV whose divisor register holds 0 (42_alu.md R94). -/
abbrev State.dividesByZero (s : State) (m : Mnemonic) : Prop := m = .div ∧ s.xOf (s.codeByte 2) = 0

/-- The spec defines the step of this running state (40_engine.md R68 to R70): the opcode is unknown, or the operand bytes lie in
memory and are legal and then either the instruction is a DIV by zero or the stack pointer and the program counter stay in
0 to 255. -/
def State.StepDefined (s : State) : Prop :=
  s.run = .halted ∨ s.mnemonicAtPc = none ∨
  ∃ m, s.mnemonicAtPc = some m ∧ s.pc.toNat + m.operandCount ≤ 255 ∧ s.operandsLegal m ∧
    (s.dividesByZero m ∨
      ((m ∈ pushers → s.sp ≠ 0) ∧ (m ∈ poppers → s.sp ≠ 255) ∧ (m ∈ advancers → s.pc.toNat + m.width ≤ 255)))

/-- The part of the state that instructions read: all but the latched fault, the output stream and the `started` bit
(10_state.md R18, R19, R20). -/
def State.readable (s : State) : GeneralRegs × Byte × Byte × RegIdx × RunState × Memory :=
  (s.regs, s.pc, s.sp, s.sel, s.run, s.mem)

end Sys2Proof.Machine
end

