-- ==== Sys2Proof/Certificates/Slice0/Obligations.lean ====
section
/-! DEFINITION. The statements about the model, from the numbered rules of spec/. Where a statement rests on a decision of the
spec's own (a rule marked "[decision: see 92_eei_decisions.md D<n>]") or on a choice of the model, its docstring names the
decision or the log entry. The default opcode bytes and the addresses at which an instruction is refused stand in the rules of
the instructions themselves; the spec's reasons for them are its decisions D1, D2 and D6 (log entries 1, 2 and 3). -/

open Sys2Proof Sys2Proof.Machine

/-! ### Encoding (30_encoding.md) -/

/-- R54: `Decode` is total and is the partial inverse of `OPC`; the set of mnemonics is closed, sixteen of them. -/
def Obligations.DecodeInvertsOpc : Prop :=
  (Mnemonic.all.length = 16 ∧ Mnemonic.all.Nodup ∧ ∀ m, m ∈ Mnemonic.all) ∧
  ∀ opc : Mnemonic → Byte, Function.Injective opc → ∀ b : Byte,
    (∀ m, decodeOpcodeWith opc b = some m ↔ b = opc m) ∧ (decodeOpcodeWith opc b = none ↔ ∀ m, b ≠ opc m)

/-- R51: the bytes of the three formats in increasing address order, for every opcode map, and where the engine reads them: an
operand byte above address 255 is none (R36, R69). -/
def Obligations.FormatsListOpcodeThenOperands : Prop :=
  (∀ (opc : Mnemonic → Byte) (a b : Byte),
    encodeWith opc .halt = [opc .halt] ∧ encodeWith opc .init = [opc .init] ∧ encodeWith opc .inc = [opc .inc] ∧
    encodeWith opc .dec = [opc .dec] ∧ encodeWith opc .push = [opc .push] ∧ encodeWith opc .pop = [opc .pop] ∧
    encodeWith opc .call = [opc .call] ∧ encodeWith opc .ret = [opc .ret] ∧ encodeWith opc .prn = [opc .prn] ∧
    encodeWith opc .pra = [opc .pra] ∧ encodeWith opc (.set a) = [opc .set, a] ∧
    encodeWith opc (.save a) = [opc .save, a] ∧ encodeWith opc (.mul a b) = [opc .mul, a, b] ∧
    encodeWith opc (.add a b) = [opc .add, a, b] ∧ encodeWith opc (.sub a b) = [opc .sub, a, b] ∧
    encodeWith opc (.div a b) = [opc .div, a, b]) ∧
  (∀ s : State, s.opcodeByte = s.codeByte 0 ∧
    (s.pc.toNat ≤ 253 → s.operandBytes = [s.codeByte 1, s.codeByte 2]) ∧
    (s.pc.toNat = 254 → s.operandBytes = [s.codeByte 1]) ∧ (s.pc.toNat = 255 → s.operandBytes = []))

/-- R54, R55: for every injective opcode map, decoding the bytes of any instruction gives it back, with whatever follows left
over: no operand bit is dropped (R52, R58). -/
def Obligations.DecodeOfEncodeGivesItBack : Prop :=
  ∀ opc : Mnemonic → Byte, Function.Injective opc → ∀ (i : Instr) (rest : List Byte),
    decodeWith opc (encodeWith opc i ++ rest) = .ok (i, rest)

/-- The other direction: bytes that decode are the bytes of the instruction they decode to, under any opcode map. -/
def Obligations.DecodedBytesAreItsEncoding : Prop :=
  ∀ (opc : Mnemonic → Byte) (bytes : List Byte) (i : Instr) (rest : List Byte),
    decodeWith opc bytes = .ok (i, rest) → bytes = encodeWith opc i ++ rest

/-- Words written from the default map of R56 (the spec's own choice, decision D1, log entry 1), one per mnemonic. -/
def Obligations.DefaultMapWordsDecode : Prop :=
  decode [0x00] = .ok (.halt, []) ∧ decode [0x01] = .ok (.init, []) ∧ decode [0x02, 0x07] = .ok (.set 7, []) ∧
  decode [0x04, 0xFF] = .ok (.save 255, []) ∧ decode [0x05, 0x00, 0x01] = .ok (.mul 0 1, []) ∧
  decode [0x06] = .ok (.prn, []) ∧ decode [0x07] = .ok (.pra, []) ∧ decode [0x08, 0x02, 0x03] = .ok (.add 2 3, []) ∧
  decode [0x09, 0x04, 0x05] = .ok (.sub 4 5, []) ∧ decode [0x0A, 0x06, 0x07] = .ok (.div 6 7, []) ∧
  decode [0x0B] = .ok (.inc, []) ∧ decode [0x0C] = .ok (.dec, []) ∧ decode [0x0D] = .ok (.push, []) ∧
  decode [0x0E] = .ok (.pop, []) ∧ decode [0x0F] = .ok (.call, []) ∧ decode [0x10] = .ok (.ret, [])

/-- R57: under every injective opcode map exactly 240 bytes are unknown opcodes. -/
def Obligations.UnknownOpcodesNumber240 : Prop :=
  ∀ opc : Mnemonic → Byte, Function.Injective opc →
    ((List.range 256).filter fun n => (decodeOpcodeWith opc (BitVec.ofNat 8 n)).isNone).length = 240

/-! ### Memory (20_memory.md) -/

/-- R33: `MemWrite` puts `mask8(v)` in one cell and changes no other cell and no other element of the state. -/
def Obligations.MemWriteChangesOneCell : Prop :=
  ∀ (s : State) (addr : Byte) (v : Nat),
    (s.memWrite addr v).memRead addr = BitVec.ofNat 8 v ∧
    (∀ b, b ≠ addr → (s.memWrite addr v).memRead b = s.memRead b) ∧ SameExcept [.mem] s (s.memWrite addr v)

/-- R37: a write of the value already present changes nothing. -/
def Obligations.WritingThePresentByteChangesNothing : Prop :=
  ∀ (s : State) (addr : Byte), s.mem.wf = true → s.memWrite addr (s.memRead addr).toNat = s

/-- The model's canonical form of memory (R30): two canonical memories whose 256 cells read alike are equal. -/
def Obligations.CanonicalMemoryIsFixedByItsCells : Prop :=
  ∀ m m' : Memory, m.wf = true → m'.wf = true → (∀ a, a < 256 → m.read a = m'.read a) → m = m'

/-! ### Reset and the host's operations (40_engine.md R65, R72 to R74; 70_reset_and_hazards.md) -/

/-- R140: reset puts every piece of state at its value, and a register or cell that nothing has written reads 0. -/
def Obligations.ResetPutsEveryElementAtItsValue : Prop :=
  (∀ i, State.reset.x i = 0) ∧ State.reset.pc = 0 ∧ State.reset.sp = 0xFF ∧ State.reset.sel = 0 ∧
  State.reset.run = .running ∧ State.reset.fault = none ∧ State.reset.out = [] ∧ State.reset.started = false ∧
  (∀ a, State.reset.memRead a = 0) ∧ State.reset.opcodeByte = State.reset.memRead 0

/-- R59: zeroed memory as code. Under the default map (decision D1) the first step from reset halts; under a map that leaves
0x00 unassigned it takes the unknown-opcode fault. -/
def Obligations.ZeroedMemoryHaltsOrFaults : Prop :=
  (∃ t, step State.reset = .next t ∧ t.status = .halted ∧ SameExcept [.run, .started] State.reset t) ∧
  ∀ opc : Mnemonic → Byte, (∀ m, opc m ≠ 0) →
    ∃ t, stepWith opc State.reset = .next t ∧ t.status = .faulted (.unknownOpcode 0 0)

/-- R72 (decision D11; that a late load is named before a bad address is log entry 14): what `load` does and when it is
refused. -/
def Obligations.LoadWritesOneCellBeforeTheFirstStep : Prop :=
  ∀ (s : State) (address : Int) (value : Nat),
    (s.started = false → 0 ≤ address → address ≤ 255 →
      ∃ t, load address value s = .next t ∧ SameExcept [.mem] s t ∧
        ∀ b : Byte, t.memRead b = if (b.toNat : Int) = address then BitVec.ofNat 8 value else s.memRead b) ∧
    (s.started = true → load address value s = .refused .uLoadLate) ∧
    (s.started = false → address < 0 ∨ 255 < address → load address value s = .refused .uLoadAddr)

/-- R72: loads may be made in any order to different cells, and of two loads to one cell the last wins (that equal cells are
equal states rests on the model's canonical form of memory, log entry 18). -/
def Obligations.LoadsCommuteAndTheLastWins : Prop :=
  ∀ (s : State) (a b : Int) (v w : Nat), s.mem.wf = true → s.started = false →
    0 ≤ a → a ≤ 255 → 0 ≤ b → b ≤ 255 →
    ∃ ta tb u, load a v s = .next ta ∧ load b w s = .next tb ∧ load b w ta = .next u ∧
      (a ≠ b → load a v tb = .next u) ∧ (a = b → u = tb)

/-- R72, R38: the load collaborator's loop places its bytes at rising addresses from the base, each masked to 8 bits, and
changes no other cell. -/
def Obligations.LoadedBytesStandInOrder : Prop :=
  ∀ (s : State) (base : Nat) (values : List Nat), s.started = false → base + values.length ≤ 256 →
    ∃ t, loadBytes base values s = .next t ∧ SameExcept [.mem] s t ∧
      (∀ k, (h : k < values.length) → t.mem.read (base + k) = BitVec.ofNat 8 values[k]) ∧
      ∀ a, a < base ∨ base + values.length ≤ a → t.mem.read a = s.mem.read a

/-- R66 (the status is read off the state after the step: log entry 13): the three statuses. -/
def Obligations.StatusFollowsRunAndFault : Prop :=
  ∀ s : State, (s.status = .continued ↔ s.run = .running) ∧
    (s.status = .halted ↔ s.run = .halted ∧ s.fault = none) ∧
    ∀ f, s.status = .faulted f ↔ s.run = .halted ∧ s.fault = some f

/-- R74: the run of a Driver ends at the first terminal status, whatever larger budget it is given, and no later step changes
the final state. -/
def Obligations.EndedRunStaysEnded : Prop :=
  ∀ (n : Nat) (s t : State) (st : Status), drive n s = .ended t st →
    st ≠ .continued ∧ t.status = st ∧ t.run = .halted ∧ step t = .next t ∧ ∀ k, drive (n + k) s = .ended t st

/-! ### The engine (40_engine.md) -/

/-- R67: when the bytes at `pc` decode to an instruction, the step is that instruction's `exec` in the state with `started`
set; under every opcode map, and so for `step`. -/
def Obligations.StepRunsTheDecodedInstruction : Prop :=
  (∀ (opc : Mnemonic → Byte) (s : State) (i : Instr) (rest : List Byte), s.run = .running →
    decodeWith opc (s.opcodeByte :: s.operandBytes) = .ok (i, rest) →
    stepWith opc s = exec i { s with started := true }) ∧
  ∀ s : State, step s = stepWith defaultOpc s

/-- R71 (decision D5): a step of a halted engine changes nothing but `started` and returns the latched terminal status. -/
def Obligations.HaltedStepIsANoOp : Prop :=
  ∀ s : State, s.run = .halted →
    ∃ t, step s = .next t ∧ t.started = true ∧ SameExcept [.started] s t ∧
      (s.fault = none → t.status = .halted) ∧ ∀ f, s.fault = some f → t.status = .faulted f

/-- R71, R126: a halted engine that has been stepped stays as it is for any number of steps. -/
def Obligations.HaltedEngineNeverResumes : Prop :=
  ∀ (n : Nat) (s : State), s.run = .halted → s.started = true → Sys2Proof.core.run n s = .next s

/-- R121 (decisions D4, D15): an opcode that no mnemonic has takes the fault, which records the address and the byte, halts, and
changes nothing else; under every opcode map. -/
def Obligations.UnknownOpcodeTakesItsFault : Prop :=
  ∀ (opc : Mnemonic → Byte) (s : State), s.run = .running → (∀ m, s.opcodeByte ≠ opc m) →
    ∃ t, stepWith opc s = .next t ∧ t.fault = some (.unknownOpcode s.pc s.opcodeByte) ∧
      t.status = .faulted (.unknownOpcode s.pc s.opcodeByte) ∧ t.started = true ∧
      SameExcept [.run, .fault, .started] s t

/-- R68, R69, R70 (decisions D2, D6 to D9): a step has a next state exactly where the spec defines it. -/
def Obligations.StepIsDefinedExactlyWhereTheSpecSays : Prop :=
  ∀ s : State, (∃ t, step s = .next t) ↔ s.StepDefined

/-- R68: no step is refused for any reason but the six of the closed list that a step can meet. -/
def Obligations.StepRefusesForSixReasonsOnly : Prop :=
  ∀ (s : State) (r : Refusal), step s = .refused r →
    r ∈ [Refusal.uOperandFetch, .uPcAdvance, .uSelRange, .uRegIndex, .uSpLow, .uSpHigh]

/-- R69 (a), R70 item 3 (decision D2): exactly when a step is refused for an operand byte above address 255. -/
def Obligations.OperandFetchRefusedExactly : Prop :=
  ∀ s : State, step s = .refused .uOperandFetch ↔
    s.run = .running ∧ ∃ m, s.mnemonicAtPc = some m ∧ 255 < s.pc.toNat + m.operandCount

/-- R53, R70 item 4 (decisions D7, D8): exactly when a step is refused for an illegal index operand. -/
def Obligations.IllegalIndexRefusedExactly : Prop :=
  ∀ s : State,
    (step s = .refused .uSelRange ↔
      s.run = .running ∧ s.mnemonicAtPc = some .set ∧ s.pc.toNat + 1 ≤ 255 ∧ 7 < (s.codeByte 1).toNat) ∧
    (step s = .refused .uRegIndex ↔
      s.run = .running ∧ ∃ m, s.mnemonicAtPc = some m ∧ m ∈ pairForms ∧ s.pc.toNat + 2 ≤ 255 ∧
        (7 < (s.codeByte 1).toNat ∨ 7 < (s.codeByte 2).toNat))

/-- R100, R70 item 6 (decision D6): exactly when a step is refused at the ends of the stack. -/
def Obligations.StackLimitRefusedExactly : Prop :=
  ∀ s : State,
    (step s = .refused .uSpLow ↔ s.run = .running ∧ (∃ m, s.mnemonicAtPc = some m ∧ m ∈ pushers) ∧ s.sp = 0) ∧
    (step s = .refused .uSpHigh ↔ s.run = .running ∧ (∃ m, s.mnemonicAtPc = some m ∧ m ∈ poppers) ∧ s.sp = 255)

/-- R69 (b), R70 item 7 (decisions D2, D9): exactly when a step is refused for an advance of `pc` above 255, after every earlier
check; a DIV by zero is not refused for it. -/
def Obligations.PcAdvanceRefusedExactly : Prop :=
  ∀ s : State, step s = .refused .uPcAdvance ↔
    s.run = .running ∧ ∃ m, s.mnemonicAtPc = some m ∧ m ∈ advancers ∧ s.pc.toNat + m.operandCount ≤ 255 ∧
      s.operandsLegal m ∧ ¬ s.dividesByZero m ∧ (m ∈ pushers → s.sp ≠ 0) ∧ (m ∈ poppers → s.sp ≠ 255) ∧
      255 < s.pc.toNat + m.width

/-! ### HALT, INIT, SET, SAVE (41_control_and_select.md) -/

/-- R80 (decision D3: `pc` stays): HALT completes in every state. -/
def Obligations.HaltStopsTheEngine : Prop :=
  encode .halt = [0x00] ∧
  ∀ s : State, ∃ t, exec .halt s = .next t ∧ t.run = .halted ∧ SameExcept [.run] s t ∧
    (s.fault = none → t.status = .halted)

/-- R81: INIT. -/
def Obligations.InitSelectsRegisterZero : Prop :=
  encode .init = [0x01] ∧
  ∀ s : State,
    (s.pc.toNat ≤ 254 → ∃ t, exec .init s = .next t ∧ t.sel = 0 ∧ t.pc.toNat = s.pc.toNat + 1 ∧
      SameExcept [.sel, .pc] s t ∧ (s.run = .running → t.status = .continued)) ∧
    (s.pc.toNat = 255 → exec .init s = .refused .uPcAdvance)

/-- R82 (decisions D2, D7): SET, with its three refusals. -/
def Obligations.SetSelectsItsOperand : Prop :=
  ∀ (s : State) (n : Byte),
    encode (.set n) = [0x02, n] ∧
    (s.pc.toNat ≤ 253 → n.toNat ≤ 7 → ∃ t, exec (.set n) s = .next t ∧ t.sel.val = n.toNat ∧
      t.pc.toNat = s.pc.toNat + 2 ∧ SameExcept [.sel, .pc] s t ∧ (s.run = .running → t.status = .continued)) ∧
    (s.pc.toNat = 255 → exec (.set n) s = .refused .uOperandFetch) ∧
    (s.pc.toNat ≤ 254 → 7 < n.toNat → exec (.set n) s = .refused .uSelRange) ∧
    (s.pc.toNat = 254 → n.toNat ≤ 7 → exec (.set n) s = .refused .uPcAdvance)

/-- R83: SAVE, every operand byte. -/
def Obligations.SaveStoresItsOperand : Prop :=
  ∀ (s : State) (n : Byte),
    encode (.save n) = [0x04, n] ∧
    (s.pc.toNat ≤ 253 → ∃ t, exec (.save n) s = .next t ∧ SelectedBecomes s t n.toNat 2) ∧
    (s.pc.toNat = 255 → exec (.save n) s = .refused .uOperandFetch) ∧
    (s.pc.toNat = 254 → exec (.save n) s = .refused .uPcAdvance)

/-! ### MUL, ADD, SUB, DIV, INC, DEC (42_alu.md) -/

/-- R91: MUL. -/
def Obligations.MulStoresTheProduct : Prop := PairRule .mul 0x05 fun va vb => va * vb

/-- R92: ADD. -/
def Obligations.AddStoresTheSum : Prop := PairRule .add 0x08 fun va vb => va + vb

/-- R93: SUB, the register named first minus the register named second. -/
def Obligations.SubStoresTheDifference : Prop := PairRule .sub 0x09 fun va vb => va - vb

/-- R94 (decisions D4, D15, and D9 for the order of the fault and the refusals): DIV, its quotient, its fault at every address
where the operands can be read, and its refusals. -/
def Obligations.DivStoresTheQuotientOrFaults : Prop :=
  ∀ (s : State) (a b : Byte),
    encode (.div a b) = [0x0A, a, b] ∧
    (∀ i j : RegIdx, a.toNat = i.val → b.toNat = j.val →
      (s.x j ≠ 0 → s.pc.toNat ≤ 252 →
        ∃ t, exec (.div a b) s = .next t ∧ SelectedBecomes s t ((s.x i).toNat / (s.x j).toNat : Nat) 3) ∧
      (s.x j = 0 → s.pc.toNat ≤ 253 →
        ∃ t, exec (.div a b) s = .next t ∧ t.fault = some (.divisionByZero i j) ∧
          t.status = .faulted (.divisionByZero i j) ∧ SameExcept [.run, .fault] s t) ∧
      (s.x j ≠ 0 → s.pc.toNat = 253 → exec (.div a b) s = .refused .uPcAdvance)) ∧
    (254 ≤ s.pc.toNat → exec (.div a b) s = .refused .uOperandFetch) ∧
    (s.pc.toNat ≤ 253 → 7 < a.toNat ∨ 7 < b.toNat → exec (.div a b) s = .refused .uRegIndex)

/-- R95: INC. -/
def Obligations.IncAddsOne : Prop := UnaryRule .inc 0x0B fun v => v + 1

/-- R96: DEC. -/
def Obligations.DecSubtractsOne : Prop := UnaryRule .dec 0x0C fun v => v - 1

/-- R97: the arithmetic laws in the words of that rule: sum and difference corrected by 256, the low 8 bits of the product, the
floor of the quotient, and the wraps of INC and DEC. -/
def Obligations.ArithmeticWrapsModulo256 : Prop :=
  ∀ va vb : Byte,
    (aluAdd va vb).toNat = (if va.toNat + vb.toNat < 256 then va.toNat + vb.toNat else va.toNat + vb.toNat - 256) ∧
    (aluSub va vb).toNat = (if vb.toNat ≤ va.toNat then va.toNat - vb.toNat else va.toNat + 256 - vb.toNat) ∧
    (aluMul va vb).toNat = va.toNat * vb.toNat % 256 ∧
    (vb ≠ 0 → (aluDiv va vb).toNat * vb.toNat ≤ va.toNat ∧ va.toNat < ((aluDiv va vb).toNat + 1) * vb.toNat) ∧
    (aluInc va).toNat = (if va = 255 then 0 else va.toNat + 1) ∧
    (aluDec va).toNat = (if va = 0 then 255 else va.toNat - 1)

/-! ### PUSH, POP, CALL, RET (43_stack_and_subroutine.md) -/

/-- R101: PUSH writes the selected register to the cell below `sp`, and no other cell changes. -/
def Obligations.PushStoresBelowTheStackPointer : Prop :=
  encode .push = [0x0D] ∧
  ∀ s : State,
    (s.sp ≠ 0 → s.pc.toNat ≤ 254 → ∃ t, exec .push s = .next t ∧ t.sp.toNat + 1 = s.sp.toNat ∧
      t.memRead t.sp = s.x s.sel ∧ (∀ a, a ≠ t.sp → t.memRead a = s.memRead a) ∧ t.pc.toNat = s.pc.toNat + 1 ∧
      SameExcept [.sp, .mem, .pc] s t ∧ (s.run = .running → t.status = .continued)) ∧
    (s.sp = 0 → exec .push s = .refused .uSpLow) ∧
    (s.sp ≠ 0 → s.pc.toNat = 255 → exec .push s = .refused .uPcAdvance)

/-- R102: POP reads the cell at `sp` into the selected register. -/
def Obligations.PopLoadsTheTopOfTheStack : Prop :=
  encode .pop = [0x0E] ∧
  ∀ s : State,
    (s.sp ≠ 255 → s.pc.toNat ≤ 254 → ∃ t, exec .pop s = .next t ∧ t.x s.sel = s.memRead s.sp ∧
      (∀ k, k ≠ s.sel → t.x k = s.x k) ∧ t.sp.toNat = s.sp.toNat + 1 ∧ t.pc.toNat = s.pc.toNat + 1 ∧
      SameExcept [.regs, .sp, .pc] s t ∧ (s.run = .running → t.status = .continued)) ∧
    (s.sp = 255 → exec .pop s = .refused .uSpHigh) ∧
    (s.sp ≠ 255 → s.pc.toNat = 255 → exec .pop s = .refused .uPcAdvance)

/-- R103 (decision D14 for the 0 pushed at address 255): CALL pushes the masked `pc + 1` and jumps to the selected register's
value, at every address. -/
def Obligations.CallPushesTheReturnAddress : Prop :=
  encode .call = [0x0F] ∧
  ∀ s : State,
    (s.sp ≠ 0 → ∃ t, exec .call s = .next t ∧ t.sp.toNat + 1 = s.sp.toNat ∧
      (t.memRead t.sp).toNat = (s.pc.toNat + 1) % 256 ∧ (∀ a, a ≠ t.sp → t.memRead a = s.memRead a) ∧
      t.pc = s.x s.sel ∧ SameExcept [.sp, .mem, .pc] s t ∧ (s.run = .running → t.status = .continued)) ∧
    (s.sp = 0 → exec .call s = .refused .uSpLow)

/-- R104: RET pops the top of the stack into `pc`, at every address. -/
def Obligations.RetPopsTheProgramCounter : Prop :=
  encode .ret = [0x10] ∧
  ∀ s : State,
    (s.sp ≠ 255 → ∃ t, exec .ret s = .next t ∧ t.pc = s.memRead s.sp ∧ t.sp.toNat = s.sp.toNat + 1 ∧
      SameExcept [.sp, .pc] s t ∧ (s.run = .running → t.status = .continued)) ∧
    (s.sp = 255 → exec .ret s = .refused .uSpHigh)

/-- R100: a PUSH and then a POP, whatever the selected register holds in between, give the register its old value and `sp` its
old value. -/
def Obligations.PopUndoesPush : Prop :=
  ∀ (s : State) (v : Byte), s.sp ≠ 0 → s.pc.toNat ≤ 253 →
    ∃ t u, exec .push s = .next t ∧ exec .pop (t.setX t.sel v) = .next u ∧ SameExcept [.pc, .mem] s u

/-- R103, R104: a CALL and then a RET at its target continue after the CALL, with the registers, `sel` and `sp` as before. -/
def Obligations.RetReturnsAfterCall : Prop :=
  ∀ s : State, s.sp ≠ 0 →
    ∃ t u, exec .call s = .next t ∧ exec .ret t = .next u ∧ u.pc.toNat = (s.pc.toNat + 1) % 256 ∧
      SameExcept [.pc, .mem] s u

/-- 20_memory.md R43: a byte that PUSH or CALL stores where `pc` then points is the opcode byte the next step fetches, and what
it decodes (for CALL the byte is the masked return address, decision D14 at address 255). -/
def Obligations.StoredByteIsFetchedNext : Prop :=
  ∀ s t : State, t.pc = t.sp →
    (exec .push s = .next t → t.opcodeByte = s.x s.sel ∧ t.mnemonicAtPc = decodeOpcode (s.x s.sel)) ∧
    (exec .call s = .next t → t.opcodeByte = BitVec.ofNat 8 (s.pc.toNat + 1) ∧
      t.mnemonicAtPc = decodeOpcode (BitVec.ofNat 8 (s.pc.toNat + 1)))

/-! ### PRN, PRA (44_output.md) -/

/-- R111: PRN. -/
def Obligations.PrnEmitsTheInteger : Prop := OutputRule .prn 0x06 .printed

/-- R112: PRA. -/
def Obligations.PraEmitsTheCharacter : Prop := OutputRule .pra 0x07 .printedChar

/-! ### Frames: what each instruction leaves unchanged when it answers a next state -/

/-- 10_state.md R12: no general register changes but the selected one, and that only by SAVE, MUL, ADD, SUB, DIV, INC, DEC and
POP. -/
def Obligations.OnlyTheSelectedRegisterChanges : Prop :=
  ∀ (i : Instr) (s t : State), exec i s = .next t →
    (∀ k, k ≠ s.sel → t.x k = s.x k) ∧
    (i.mnemonic ∉ [Mnemonic.save, .mul, .add, .sub, .div, .inc, .dec, .pop] → t.regs = s.regs)

/-- 20_memory.md R34: PUSH and CALL store one byte, at `sp - 1`; every other instruction stores nothing. -/
def Obligations.OnlyPushAndCallStore : Prop :=
  ∀ (i : Instr) (s t : State), exec i s = .next t →
    (i.mnemonic ∈ pushers → ∀ a, a ≠ s.sp - 1 → t.memRead a = s.memRead a) ∧
    (i.mnemonic ∉ pushers → ∀ a, t.memRead a = s.memRead a)

/-- 10_state.md R15, R16 (90_conflicts.md C6): `sel` changes only by INIT and SET, `sp` only by PUSH, POP, CALL and RET. -/
def Obligations.SelectionAndStackPointerFrame : Prop :=
  ∀ (i : Instr) (s t : State), exec i s = .next t →
    (i.mnemonic ∉ [Mnemonic.init, .set] → t.sel = s.sel) ∧
    (i.mnemonic ∉ pushers ++ poppers → t.sp = s.sp)

/-- 10_state.md R17 to R20: the output stream changes only by PRN and PRA, `run` only by HALT and DIV, the fault record only by
DIV, and no instruction changes `started`. -/
def Obligations.OutputRunAndFaultFrame : Prop :=
  ∀ (i : Instr) (s t : State), exec i s = .next t →
    (i.mnemonic ∉ [Mnemonic.prn, .pra] → t.out = s.out) ∧ (i.mnemonic ∉ [Mnemonic.halt, .div] → t.run = s.run) ∧
    (i.mnemonic ≠ .div → t.fault = s.fault) ∧ t.started = s.started

/-! ### Rules of the whole machine, about every step -/

/-- 10_state.md R14 (decisions D3, D4): the new `pc` of a step, instruction by instruction. -/
def Obligations.StepMovesPcByTheTable : Prop :=
  ∀ s t : State, s.run = .running → step s = .next t →
    match s.mnemonicAtPc with
    | none => t.pc = s.pc
    | some .halt => t.pc = s.pc
    | some .call => t.pc = s.x s.sel
    | some .ret => t.pc = s.memRead s.sp
    | some .div => (s.dividesByZero .div → t.pc = s.pc) ∧ (¬ s.dividesByZero .div → t.pc.toNat = s.pc.toNat + 3)
    | some m => t.pc.toNat = s.pc.toNat + m.width

/-- 10_state.md R19 (decision D13): a step appends one event where it runs PRN or PRA and nothing otherwise, so the stream only
grows and keeps the order of execution. -/
def Obligations.StepAppendsItsEvent : Prop :=
  ∀ s t : State, step s = .next t →
    t.out = s.out ++
      (if s.run = .halted then []
        else if s.mnemonicAtPc = some .prn then [.printed (s.x s.sel)]
        else if s.mnemonicAtPc = some .pra then [.printedChar (s.x s.sel)]
        else [])

/-- 10_state.md R17, 60_exceptions.md R120: a running engine halts by HALT, by an unknown opcode or by a division by zero, and
by nothing else. -/
def Obligations.EngineHaltsForThreeCausesOnly : Prop :=
  ∀ s t : State, s.run = .running → step s = .next t →
    (t.run = .halted ↔
      s.mnemonicAtPc = none ∨ s.mnemonicAtPc = some .halt ∨ (s.mnemonicAtPc = some .div ∧ s.dividesByZero .div))

/-- 60_exceptions.md R124 (decision D4): a step that latches a fault halts and changes nothing else; every fault is precise. -/
def Obligations.FaultStepChangesNothingElse : Prop :=
  ∀ s t : State, step s = .next t → t.fault ≠ s.fault →
    t.run = .halted ∧ SameExcept [.run, .fault, .started] s t

/-- 10_state.md R18: a latched fault never changes by a step (of the invariant, whose canonical form of memory is log entry 18's
choice, only the half about the fault matters here). -/
def Obligations.LatchedFaultNeverChanges : Prop :=
  ∀ (s t : State) (f : FaultRecord), s.Inv → s.fault = some f → step s = .next t → t.fault = some f

/-- 10_state.md R18, R19, R20: no instruction reads the fault record, the output stream or `started`: two states that agree on
the rest are refused alike, and step to states that agree on the rest. -/
def Obligations.FaultOutputAndStartedAreNotRead : Prop :=
  ∀ s s' : State, s.readable = s'.readable →
    (∀ r, step s = .refused r → step s' = .refused r) ∧
    ∀ t, step s = .next t → ∃ t', step s' = .next t' ∧ t'.readable = t.readable

/-! ### Invariants (40_engine.md R77) -/

/-- The invariant holds after reset: no fault in a running engine and no halted engine that was never stepped (R77, 10_state.md
R25), and memory in the canonical form that is the model's own choice (log entry 18). -/
def Obligations.ResetMeetsTheInvariant : Prop := State.reset.EngineInv

/-- Every step keeps the invariant, from every state that meets it: a fault stands only in a halted engine (R77, 10_state.md
R18), a halted engine has been stepped (R71), and memory stays in the canonical form that is the model's own choice (log entry
18). Under any opcode map the half `State.Inv` before a step is enough for all of it after, since a step sets `started`. -/
def Obligations.EveryStepKeepsTheInvariant : Prop :=
  (∀ s t : State, s.EngineInv → step s = .next t → t.EngineInv) ∧
  ∀ (opc : Mnemonic → Byte) (s t : State), s.Inv → stepWith opc s = .next t → t.EngineInv

/-- R77: every state reachable from reset by the host's loads and resets and by steps meets the invariant (its canonical form of
memory is the model's own choice, log entry 18), and so a halted one has been stepped (R71). -/
def Obligations.ReachableStatesMeetTheInvariant : Prop :=
  ∀ s : State, Reachable s → s.EngineInv
end

