-- ==== Sys2Proof/Laws/State.lean ====
section
/-! SUPPORT. One lemma per field per update of the state, so that no proof unfolds a record update; and reading a general
register after writing one. -/

namespace Sys2Proof.Machine

/-! ### `State.setX` -/

@[simp] theorem State.setX_regs (s : State) (i : RegIdx) (v : Byte) : (s.setX i v).regs = s.regs.set i v := rfl
@[simp] theorem State.setX_pc (s : State) (i : RegIdx) (v : Byte) : (s.setX i v).pc = s.pc := rfl
@[simp] theorem State.setX_sp (s : State) (i : RegIdx) (v : Byte) : (s.setX i v).sp = s.sp := rfl
@[simp] theorem State.setX_sel (s : State) (i : RegIdx) (v : Byte) : (s.setX i v).sel = s.sel := rfl
@[simp] theorem State.setX_run (s : State) (i : RegIdx) (v : Byte) : (s.setX i v).run = s.run := rfl
@[simp] theorem State.setX_fault (s : State) (i : RegIdx) (v : Byte) : (s.setX i v).fault = s.fault := rfl
@[simp] theorem State.setX_out (s : State) (i : RegIdx) (v : Byte) : (s.setX i v).out = s.out := rfl
@[simp] theorem State.setX_started (s : State) (i : RegIdx) (v : Byte) : (s.setX i v).started = s.started := rfl
@[simp] theorem State.setX_mem (s : State) (i : RegIdx) (v : Byte) : (s.setX i v).mem = s.mem := rfl

/-! ### `State.setSelected` -/

@[simp] theorem State.setSelected_regs (s : State) (v : Byte) : (s.setSelected v).regs = s.regs.set s.sel v := rfl
@[simp] theorem State.setSelected_pc (s : State) (v : Byte) : (s.setSelected v).pc = s.pc := rfl
@[simp] theorem State.setSelected_sp (s : State) (v : Byte) : (s.setSelected v).sp = s.sp := rfl
@[simp] theorem State.setSelected_sel (s : State) (v : Byte) : (s.setSelected v).sel = s.sel := rfl
@[simp] theorem State.setSelected_run (s : State) (v : Byte) : (s.setSelected v).run = s.run := rfl
@[simp] theorem State.setSelected_fault (s : State) (v : Byte) : (s.setSelected v).fault = s.fault := rfl
@[simp] theorem State.setSelected_out (s : State) (v : Byte) : (s.setSelected v).out = s.out := rfl
@[simp] theorem State.setSelected_started (s : State) (v : Byte) : (s.setSelected v).started = s.started := rfl
@[simp] theorem State.setSelected_mem (s : State) (v : Byte) : (s.setSelected v).mem = s.mem := rfl

/-! ### `State.setSel` -/

@[simp] theorem State.setSel_regs (s : State) (i : RegIdx) : (s.setSel i).regs = s.regs := rfl
@[simp] theorem State.setSel_pc (s : State) (i : RegIdx) : (s.setSel i).pc = s.pc := rfl
@[simp] theorem State.setSel_sp (s : State) (i : RegIdx) : (s.setSel i).sp = s.sp := rfl
@[simp] theorem State.setSel_sel (s : State) (i : RegIdx) : (s.setSel i).sel = i := rfl
@[simp] theorem State.setSel_run (s : State) (i : RegIdx) : (s.setSel i).run = s.run := rfl
@[simp] theorem State.setSel_fault (s : State) (i : RegIdx) : (s.setSel i).fault = s.fault := rfl
@[simp] theorem State.setSel_out (s : State) (i : RegIdx) : (s.setSel i).out = s.out := rfl
@[simp] theorem State.setSel_started (s : State) (i : RegIdx) : (s.setSel i).started = s.started := rfl
@[simp] theorem State.setSel_mem (s : State) (i : RegIdx) : (s.setSel i).mem = s.mem := rfl

/-! ### `State.memWrite` -/

@[simp] theorem State.memWrite_regs (s : State) (a : Byte) (v : Nat) : (s.memWrite a v).regs = s.regs := rfl
@[simp] theorem State.memWrite_pc (s : State) (a : Byte) (v : Nat) : (s.memWrite a v).pc = s.pc := rfl
@[simp] theorem State.memWrite_sp (s : State) (a : Byte) (v : Nat) : (s.memWrite a v).sp = s.sp := rfl
@[simp] theorem State.memWrite_sel (s : State) (a : Byte) (v : Nat) : (s.memWrite a v).sel = s.sel := rfl
@[simp] theorem State.memWrite_run (s : State) (a : Byte) (v : Nat) : (s.memWrite a v).run = s.run := rfl
@[simp] theorem State.memWrite_fault (s : State) (a : Byte) (v : Nat) : (s.memWrite a v).fault = s.fault := rfl
@[simp] theorem State.memWrite_out (s : State) (a : Byte) (v : Nat) : (s.memWrite a v).out = s.out := rfl
@[simp] theorem State.memWrite_started (s : State) (a : Byte) (v : Nat) : (s.memWrite a v).started = s.started := rfl
@[simp] theorem State.memWrite_mem (s : State) (a : Byte) (v : Nat) : (s.memWrite a v).mem = s.mem.write a.toNat (mask8 v) := rfl

/-! ### `State.emit` -/

@[simp] theorem State.emit_regs (s : State) (e : OutputEvent) : (s.emit e).regs = s.regs := rfl
@[simp] theorem State.emit_pc (s : State) (e : OutputEvent) : (s.emit e).pc = s.pc := rfl
@[simp] theorem State.emit_sp (s : State) (e : OutputEvent) : (s.emit e).sp = s.sp := rfl
@[simp] theorem State.emit_sel (s : State) (e : OutputEvent) : (s.emit e).sel = s.sel := rfl
@[simp] theorem State.emit_run (s : State) (e : OutputEvent) : (s.emit e).run = s.run := rfl
@[simp] theorem State.emit_fault (s : State) (e : OutputEvent) : (s.emit e).fault = s.fault := rfl
@[simp] theorem State.emit_out (s : State) (e : OutputEvent) : (s.emit e).out = s.out ++ [e] := rfl
@[simp] theorem State.emit_started (s : State) (e : OutputEvent) : (s.emit e).started = s.started := rfl
@[simp] theorem State.emit_mem (s : State) (e : OutputEvent) : (s.emit e).mem = s.mem := rfl

/-! ### `State.halt` -/

@[simp] theorem State.halt_regs (s : State) : s.halt.regs = s.regs := rfl
@[simp] theorem State.halt_pc (s : State) : s.halt.pc = s.pc := rfl
@[simp] theorem State.halt_sp (s : State) : s.halt.sp = s.sp := rfl
@[simp] theorem State.halt_sel (s : State) : s.halt.sel = s.sel := rfl
@[simp] theorem State.halt_run (s : State) : s.halt.run = .halted := rfl
@[simp] theorem State.halt_fault (s : State) : s.halt.fault = s.fault := rfl
@[simp] theorem State.halt_out (s : State) : s.halt.out = s.out := rfl
@[simp] theorem State.halt_started (s : State) : s.halt.started = s.started := rfl
@[simp] theorem State.halt_mem (s : State) : s.halt.mem = s.mem := rfl

/-! ### `State.takeFault` -/

@[simp] theorem State.takeFault_regs (s : State) (f : FaultRecord) : (s.takeFault f).regs = s.regs := rfl
@[simp] theorem State.takeFault_pc (s : State) (f : FaultRecord) : (s.takeFault f).pc = s.pc := rfl
@[simp] theorem State.takeFault_sp (s : State) (f : FaultRecord) : (s.takeFault f).sp = s.sp := rfl
@[simp] theorem State.takeFault_sel (s : State) (f : FaultRecord) : (s.takeFault f).sel = s.sel := rfl
@[simp] theorem State.takeFault_run (s : State) (f : FaultRecord) : (s.takeFault f).run = .halted := rfl
@[simp] theorem State.takeFault_fault (s : State) (f : FaultRecord) : (s.takeFault f).fault = some f := rfl
@[simp] theorem State.takeFault_out (s : State) (f : FaultRecord) : (s.takeFault f).out = s.out := rfl
@[simp] theorem State.takeFault_started (s : State) (f : FaultRecord) : (s.takeFault f).started = s.started := rfl
@[simp] theorem State.takeFault_mem (s : State) (f : FaultRecord) : (s.takeFault f).mem = s.mem := rfl

/-! ### `State.start` -/

@[simp] theorem State.start_regs (s : State) : s.start.regs = s.regs := rfl
@[simp] theorem State.start_pc (s : State) : s.start.pc = s.pc := rfl
@[simp] theorem State.start_sp (s : State) : s.start.sp = s.sp := rfl
@[simp] theorem State.start_sel (s : State) : s.start.sel = s.sel := rfl
@[simp] theorem State.start_run (s : State) : s.start.run = s.run := rfl
@[simp] theorem State.start_fault (s : State) : s.start.fault = s.fault := rfl
@[simp] theorem State.start_out (s : State) : s.start.out = s.out := rfl
@[simp] theorem State.start_started (s : State) : s.start.started = true := rfl
@[simp] theorem State.start_mem (s : State) : s.start.mem = s.mem := rfl
@[simp] theorem State.start_x (s : State) (i : RegIdx) : s.start.x i = s.x i := rfl
@[simp] theorem State.start_selected (s : State) : s.start.selected = s.selected := rfl
@[simp] theorem State.start_memRead (s : State) (a : Byte) : s.start.memRead a = s.memRead a := rfl
@[simp] theorem State.start_opcodeByte (s : State) : s.start.opcodeByte = s.opcodeByte := rfl

/-! ### General registers -/

/-- Reading a general register after writing one. -/
@[simp] theorem GeneralRegs.get_set (r : GeneralRegs) (i j : RegIdx) (v : Byte) :
    (r.set i v).get j = if j = i then v else r.get j := by
  fin_cases i <;> fin_cases j <;> rfl

/-- Two register banks that read alike are equal. -/
theorem GeneralRegs.ext_get (r r' : GeneralRegs) (h : ∀ i, r.get i = r'.get i) : r = r' := by
  obtain ⟨_, _, _, _, _, _, _, _⟩ := r
  obtain ⟨_, _, _, _, _, _, _, _⟩ := r'
  have h0 := h 0; have h1 := h 1; have h2 := h 2; have h3 := h 3
  have h4 := h 4; have h5 := h 5; have h6 := h 6; have h7 := h 7
  simp only [GeneralRegs.get] at h0 h1 h2 h3 h4 h5 h6 h7
  subst h0 h1 h2 h3 h4 h5 h6 h7
  rfl

/-- Writing back what a register holds changes nothing. -/
theorem GeneralRegs.set_get_self (r : GeneralRegs) (i : RegIdx) : r.set i (r.get i) = r := by
  fin_cases i <;> rfl

/-- `x[j]` after `x[i] <- v`. -/
@[simp] theorem State.setX_x (s : State) (i j : RegIdx) (v : Byte) :
    (s.setX i v).x j = if j = i then v else s.x j := by
  simp [State.x]

/-- `x[j]` after `x[sel] <- v`. -/
@[simp] theorem State.setSelected_x (s : State) (j : RegIdx) (v : Byte) :
    (s.setSelected v).x j = if j = s.sel then v else s.x j := by
  simp [State.x]

@[simp] theorem State.setSel_x (s : State) (i j : RegIdx) : (s.setSel i).x j = s.x j := rfl
@[simp] theorem State.memWrite_x (s : State) (a : Byte) (v : Nat) (j : RegIdx) : (s.memWrite a v).x j = s.x j := rfl
@[simp] theorem State.emit_x (s : State) (e : OutputEvent) (j : RegIdx) : (s.emit e).x j = s.x j := rfl
@[simp] theorem State.halt_x (s : State) (j : RegIdx) : s.halt.x j = s.x j := rfl
@[simp] theorem State.takeFault_x (s : State) (f : FaultRecord) (j : RegIdx) : (s.takeFault f).x j = s.x j := rfl

end Sys2Proof.Machine
end

