-- ==== Sys2Proof/Laws/Memory.lean ====
section
/-! SUPPORT. The laws of memory: what a byte reads as after each operation, that every operation keeps the canonical form
`Memory.wf`, and what taking bytes from memory gives. The read laws hold for every list, canonical or not. -/

namespace Sys2Proof.Machine

/-! ### Reading one byte -/

@[simp] theorem Memory.read_nil (a : Nat) : Memory.read [] a = 0 := rfl

theorem Memory.read_cons (c : Host.Cell) (m : Memory) (a : Nat) :
    Memory.read (c :: m) a = if c.1 = a then c.2 else Memory.read m a := rfl

theorem Memory.read_erase (m : Memory) (a b : Nat) : (m.erase a).read b = if b = a then 0 else m.read b := by
  induction m with
  | nil => simp [Memory.erase]
  | cons c m ih =>
    unfold Memory.erase
    split
    · next hc =>
      rw [ih, Memory.read_cons]
      split
      · rfl
      · next hb => rw [if_neg (by omega)]
    · next hc =>
      rw [Memory.read_cons, Memory.read_cons, ih]
      split
      · next hb => rw [if_neg (by omega)]
      · rfl

theorem Memory.read_insert_erase (m : Memory) (a b : Nat) (v : Byte) :
    ((m.erase a).insert a v).read b = if b = a then v else m.read b := by
  induction m with
  | nil => simp [Memory.erase, Memory.insert, Memory.read, eq_comm]
  | cons c m ih =>
    unfold Memory.erase
    split
    · next hc =>
      rw [ih, Memory.read_cons]
      split
      · rfl
      · next hb => rw [if_neg (by omega)]
    · next hc =>
      unfold Memory.insert
      split
      · rw [Memory.read_cons, Memory.read_cons, Memory.read_cons, Memory.read_erase]
        simp only [eq_comm (a := a)]
        split
        · rfl
        · rfl
      · rw [Memory.read_cons, Memory.read_cons, ih]
        split
        · next hb => rw [if_neg (by omega)]
        · rfl

/-- Read after write: the byte written, and every other byte as before (20_memory.md R33). -/
theorem Memory.read_write (m : Memory) (a b : Nat) (v : Byte) :
    (m.write a v).read b = if b = a then v else m.read b := by
  unfold Memory.write
  split
  · next hv => rw [Memory.read_erase, hv]
  · exact Memory.read_insert_erase m a b v

/-! ### The canonical form -/

/-- Every listed address of a memory is above a bound. -/
def Memory.above (m : Memory) (k : Nat) : Prop := ∀ c ∈ m, k < c.1

theorem Memory.wf_cons (c : Host.Cell) (m : Memory) :
    Memory.wf (c :: m) = true ↔ c.1 < 256 ∧ c.2 ≠ 0 ∧ Memory.above m c.1 ∧ Memory.wf m = true := by
  simp only [Memory.wf, Bool.and_eq_true, decide_eq_true_eq, bne_iff_ne, ne_eq, List.all_eq_true, and_assoc]
  rfl

theorem Memory.above_erase {m : Memory} {k : Nat} (a : Nat) (h : m.above k) : (m.erase a).above k := by
  induction m with
  | nil => exact h
  | cons c m ih =>
    have hm : Memory.above m k := fun d hd => h d (List.mem_cons_of_mem _ hd)
    unfold Memory.erase
    split
    · exact ih hm
    · intro d hd
      rcases List.mem_cons.mp hd with rfl | hd
      · exact h _ List.mem_cons_self
      · exact ih hm d hd

theorem Memory.wf_erase {m : Memory} (a : Nat) (h : m.wf = true) : (m.erase a).wf = true := by
  induction m with
  | nil => exact h
  | cons c m ih =>
    obtain ⟨h1, h2, h3, h4⟩ := (Memory.wf_cons c m).mp h
    unfold Memory.erase
    split
    · exact ih h4
    · exact (Memory.wf_cons _ _).mpr ⟨h1, h2, Memory.above_erase a h3, ih h4⟩

theorem Memory.above_insert {m : Memory} {k a : Nat} (v : Byte) (ha : k < a) (h : m.above k) : (m.insert a v).above k := by
  induction m with
  | nil =>
    intro d hd
    obtain rfl := List.mem_singleton.mp hd
    exact ha
  | cons c m ih =>
    have hm : Memory.above m k := fun d hd => h d (List.mem_cons_of_mem _ hd)
    unfold Memory.insert
    split
    · intro d hd
      rcases List.mem_cons.mp hd with rfl | hd
      · exact ha
      · exact h d hd
    · intro d hd
      rcases List.mem_cons.mp hd with rfl | hd
      · exact h _ List.mem_cons_self
      · exact ih hm d hd

theorem Memory.erase_ne (m : Memory) (a : Nat) : ∀ c ∈ m.erase a, c.1 ≠ a := by
  induction m with
  | nil => simp [Memory.erase]
  | cons c m ih =>
    unfold Memory.erase
    split
    · exact ih
    · next hc =>
      intro d hd
      rcases List.mem_cons.mp hd with rfl | hd
      · exact hc
      · exact ih d hd

theorem Memory.wf_insert {m : Memory} {a : Nat} {v : Byte} (ha : a < 256) (hv : v ≠ 0) (hne : ∀ c ∈ m, c.1 ≠ a)
    (h : m.wf = true) : (m.insert a v).wf = true := by
  induction m with
  | nil => exact (Memory.wf_cons _ _).mpr ⟨ha, hv, by simp [Memory.above], rfl⟩
  | cons c m ih =>
    obtain ⟨h1, h2, h3, h4⟩ := (Memory.wf_cons c m).mp h
    have hca : c.1 ≠ a := hne c List.mem_cons_self
    unfold Memory.insert
    split
    · next hlt =>
      refine (Memory.wf_cons _ _).mpr ⟨ha, hv, ?_, h⟩
      intro d hd
      rcases List.mem_cons.mp hd with rfl | hd
      · exact hlt
      · exact Nat.lt_trans hlt (h3 d hd)
    · next hlt =>
      exact (Memory.wf_cons _ _).mpr ⟨h1, h2, Memory.above_insert v (by omega) h3,
        ih (fun d hd => hne d (List.mem_cons_of_mem _ hd)) h4⟩

/-- A write to one of the 256 cells keeps the canonical form. -/
theorem Memory.wf_write {m : Memory} {a : Nat} (v : Byte) (ha : a < 256) (h : m.wf = true) : (m.write a v).wf = true := by
  unfold Memory.write
  split
  · exact Memory.wf_erase a h
  · next hv => exact Memory.wf_insert ha hv (Memory.erase_ne m a) (Memory.wf_erase a h)

/-- Placing bytes keeps the canonical form. -/
theorem Memory.wf_placeBytes {m : Memory} (a : Nat) (bs : List Byte) (h : m.wf = true) : (m.placeBytes a bs).wf = true := by
  induction bs generalizing m a with
  | nil => exact h
  | cons b bs ih =>
    unfold Memory.placeBytes
    split
    · exact ih (a + 1) (Memory.wf_write b (by omega) h)
    · exact h

/-- The reset memory is canonical. -/
theorem Memory.wf_reset : State.reset.mem.wf = true := rfl

/-- `MemWrite` keeps the canonical form. -/
theorem State.memWrite_wf {s : State} (a : Byte) (v : Nat) (h : s.mem.wf = true) : (s.memWrite a v).mem.wf = true :=
  Memory.wf_write (mask8 v) a.isLt h

/-- An address below every listed one reads 0. -/
theorem Memory.read_above {m : Memory} {k a : Nat} (h : m.above k) (ha : a ≤ k) : m.read a = 0 := by
  induction m with
  | nil => rfl
  | cons c m ih =>
    have hc := h c List.mem_cons_self
    rw [Memory.read_cons, if_neg (by omega)]
    exact ih fun d hd => h d (List.mem_cons_of_mem _ hd)

/-! ### Taking bytes -/

theorem Memory.bytesFrom_zero (m : Memory) (a : Nat) : m.bytesFrom a 0 = [] := rfl

theorem Memory.bytesFrom_succ (m : Memory) (a n : Nat) :
    m.bytesFrom a (n + 1) = if a ≤ 255 then m.read a :: m.bytesFrom (a + 1) n else [] := rfl

/-- The bytes an operand can come from, by where `pc` stands (40_engine.md R69). -/
theorem State.operandBytes_cases (s : State) :
    (s.pc.toNat ≤ 253 ∧ s.operandBytes = [s.mem.read (s.pc.toNat + 1), s.mem.read (s.pc.toNat + 2)]) ∨
    (s.pc.toNat = 254 ∧ s.operandBytes = [s.mem.read (s.pc.toNat + 1)]) ∨
    (s.pc.toNat = 255 ∧ s.operandBytes = []) := by
  have hpc : s.pc.toNat < 256 := s.pc.isLt
  unfold State.operandBytes
  simp only [Memory.bytesFrom]
  rcases Nat.lt_or_ge s.pc.toNat 254 with h | h
  · exact Or.inl ⟨by omega, by rw [if_pos (by omega), if_pos (by omega)]⟩
  · rcases Nat.lt_or_ge s.pc.toNat 255 with h' | h'
    · exact Or.inr (Or.inl ⟨by omega, by rw [if_pos (by omega), if_neg (by omega)]⟩)
    · exact Or.inr (Or.inr ⟨by omega, by rw [if_neg (by omega)]⟩)

end Sys2Proof.Machine
end

