-- ==== Sys2Proof/Laws/Ops.lean ====
section
/-! SUPPORT. One lemma per shared operation: everything it can do when it answers a next state, and everything when it is
refused. Proofs cite these and do not unfold the operation. -/

namespace Sys2Proof.Machine

/-! ### `mask8` (42_alu.md R97) -/

theorem mask8_natCast (n : Nat) : mask8 (n : Int) = BitVec.ofNat 8 n := by
  unfold mask8
  rw [show ((n : Int) % 256).toNat = n % 256 by omega]
  apply BitVec.eq_of_toNat_eq
  simp

/-- `mask8` of a byte's value is the byte. -/
@[simp] theorem mask8_toNat (b : Byte) : mask8 (b.toNat : Int) = b := by
  rw [mask8_natCast]
  simp

/-- The value of `mask8(v)` is `v mod 256`. -/
theorem toNat_mask8 (v : Int) : ((mask8 v).toNat : Int) = v % 256 := by
  unfold mask8
  rw [BitVec.toNat_ofNat, Nat.mod_eq_of_lt (by omega)]
  omega

/-! ### Index operands (30_encoding.md R53) -/

theorem toIndex_eq_some {n : Byte} {i : RegIdx} : toIndex n = some i ↔ n.toNat = i.val := by
  have hi := i.isLt
  unfold toIndex
  split
  · next h => simp [Fin.ext_iff]
  · next h => constructor <;> intro h' <;> [cases h'; omega]

theorem toIndex_eq_none {n : Byte} : toIndex n = none ↔ 7 < n.toNat := by
  unfold toIndex
  split
  · next h => constructor <;> intro h' <;> [cases h'; omega]
  · next h => exact ⟨fun _ => by omega, fun _ => rfl⟩

/-! ### `advance` (40_engine.md R69) -/

theorem advance_eq_next {w : Nat} {s t : State} :
    advance w s = .next t ↔ s.pc.toNat + w ≤ 255 ∧ t = { s with pc := BitVec.ofNat 8 (s.pc.toNat + w) } := by
  unfold advance
  split
  · next h => constructor <;> intro h' <;> [cases h'; omega]
  · next h => simp only [Host.Outcome.next.injEq, eq_comm (a := t), and_iff_right (show s.pc.toNat + w ≤ 255 by omega)]

theorem advance_eq_refused {w : Nat} {s : State} {r : Refusal} :
    advance w s = .refused r ↔ 255 < s.pc.toNat + w ∧ r = .uPcAdvance := by
  unfold advance
  split
  · next h => simp only [Host.Outcome.refused.injEq, eq_comm (a := r), and_iff_right h]
  · next h => constructor <;> intro h' <;> [cases h'; omega]

/-! ### `jump` (43_stack_and_subroutine.md R105) -/

theorem jump_eq_next {target : Byte} {s t : State} : jump target s = .next t ↔ t = { s with pc := target } := by
  simp only [jump, Host.Outcome.next.injEq, eq_comm]

theorem jump_ne_refused {target : Byte} {s : State} {r : Refusal} : jump target s ≠ .refused r := by
  simp [jump]

/-! ### `pushing` and `popping` (43_stack_and_subroutine.md R100) -/

/-- The state after a push of `mask8(v)`. -/
def pushed (v : Nat) (s : State) : State := { s with sp := s.sp - 1 }.memWrite (s.sp - 1) v

theorem pushing_eq_next {v : Nat} {s t : State} {rest : State → StepOutcome} :
    pushing v s rest = .next t ↔ s.sp ≠ 0 ∧ rest (pushed v s) = .next t := by
  unfold pushing pushed
  split
  · next h => simp [h]
  · next h => simp only [ne_eq, h, not_false_eq_true, true_and]

theorem pushing_eq_refused {v : Nat} {s : State} {rest : State → StepOutcome} {r : Refusal} :
    pushing v s rest = .refused r ↔
      (s.sp = 0 ∧ r = .uSpLow) ∨ (s.sp ≠ 0 ∧ rest (pushed v s) = .refused r) := by
  unfold pushing pushed
  split
  · next h => simp [h, eq_comm]
  · next h => simp only [h, false_and, ne_eq, not_false_eq_true, true_and, false_or]

theorem popping_eq_next {s t : State} {rest : Byte → State → StepOutcome} :
    popping s rest = .next t ↔ s.sp ≠ 255 ∧ rest (s.memRead s.sp) { s with sp := s.sp + 1 } = .next t := by
  unfold popping
  split
  · next h => simp [h]
  · next h => simp only [ne_eq, h, not_false_eq_true, true_and]

theorem popping_eq_refused {s : State} {rest : Byte → State → StepOutcome} {r : Refusal} :
    popping s rest = .refused r ↔
      (s.sp = 255 ∧ r = .uSpHigh) ∨
      (s.sp ≠ 255 ∧ rest (s.memRead s.sp) { s with sp := s.sp + 1 } = .refused r) := by
  unfold popping
  split
  · next h => simp [h, eq_comm]
  · next h => simp only [h, false_and, ne_eq, not_false_eq_true, true_and, false_or]

/-! ### `needOperands` and `fetchAB` (40_engine.md R70 items 3 and 4) -/

theorem needOperands_eq_next {n : Nat} {s t : State} {rest : StepOutcome} :
    needOperands n s rest = .next t ↔ s.pc.toNat + n ≤ 255 ∧ rest = .next t := by
  unfold needOperands
  split
  · next h => constructor <;> intro h' <;> [cases h'; omega]
  · next h => rw [and_iff_right (show s.pc.toNat + n ≤ 255 by omega)]

theorem needOperands_eq_refused {n : Nat} {s : State} {rest : StepOutcome} {r : Refusal} :
    needOperands n s rest = .refused r ↔
      (255 < s.pc.toNat + n ∧ r = .uOperandFetch) ∨ (s.pc.toNat + n ≤ 255 ∧ rest = .refused r) := by
  unfold needOperands
  split
  · next h =>
    rw [and_iff_right h, Host.Outcome.refused.injEq, eq_comm (a := r)]
    exact ⟨Or.inl, fun h' => h'.elim id fun h'' => by omega⟩
  · next h =>
    rw [and_iff_right (show s.pc.toNat + n ≤ 255 by omega)]
    exact ⟨Or.inr, fun h' => h'.elim (fun h'' => by omega) id⟩

theorem fetchAB_eq_next {a b : Byte} {s t : State} {rest : RegIdx → RegIdx → StepOutcome} :
    fetchAB a b s rest = .next t ↔
      s.pc.toNat + 2 ≤ 255 ∧ ∃ i j, toIndex a = some i ∧ toIndex b = some j ∧ rest i j = .next t := by
  unfold fetchAB
  rw [needOperands_eq_next]
  cases toIndex a <;> cases toIndex b <;> simp

theorem fetchAB_eq_refused {a b : Byte} {s : State} {rest : RegIdx → RegIdx → StepOutcome} {r : Refusal} :
    fetchAB a b s rest = .refused r ↔
      (255 < s.pc.toNat + 2 ∧ r = .uOperandFetch) ∨
      (s.pc.toNat + 2 ≤ 255 ∧ (toIndex a = none ∨ toIndex b = none) ∧ r = .uRegIndex) ∨
      (s.pc.toNat + 2 ≤ 255 ∧ ∃ i j, toIndex a = some i ∧ toIndex b = some j ∧ rest i j = .refused r) := by
  unfold fetchAB
  rw [needOperands_eq_refused]
  cases toIndex a <;> cases toIndex b <;> simp [eq_comm (a := r)]

end Sys2Proof.Machine
end

