-- ==== Sys2Proof/Laws/Engine.lean ====
section
/-! SUPPORT. What each meaning and one step can do, said once: a proof about `exec` or `step` cites these. -/

namespace Sys2Proof.Machine

/-- Everything a step can do, in the order of 40_engine.md R67 and R70. -/
theorem stepWith_cases (opc : Mnemonic → Byte) (s : State) :
    (s.run = .halted ∧ stepWith opc s = .next s.start) ∨
    (s.run = .running ∧ decodeOpcodeWith opc s.opcodeByte = none ∧
      stepWith opc s = .next (s.start.takeFault (.unknownOpcode s.pc s.opcodeByte))) ∨
    (∃ m, s.run = .running ∧ decodeOpcodeWith opc s.opcodeByte = some m ∧ takeOperands m s.operandBytes = none ∧
      stepWith opc s = .refused .uOperandFetch) ∨
    (∃ m i rest, s.run = .running ∧ decodeOpcodeWith opc s.opcodeByte = some m ∧
      takeOperands m s.operandBytes = some (i, rest) ∧ stepWith opc s = exec i s.start) := by
  unfold stepWith
  cases hr : s.run with
  | halted => exact Or.inl ⟨rfl, rfl⟩
  | running =>
    refine Or.inr ?_
    cases hd : decodeOpcodeWith opc s.opcodeByte with
    | none => exact Or.inl ⟨rfl, rfl, rfl⟩
    | some m =>
      refine Or.inr ?_
      cases ht : takeOperands m s.operandBytes with
      | none => exact Or.inl ⟨m, rfl, rfl, ht, by simp [ht]⟩
      | some r => exact Or.inr ⟨m, r.1, r.2, rfl, rfl, ht, by simp [ht]⟩

/-! ### The meanings: when each answers a next state, and which -/

theorem execHalt_eq_next {s t : State} : execHalt s = .next t ↔ t = s.halt := by
  simp only [execHalt, Host.Outcome.next.injEq, eq_comm]

theorem execInit_eq_next {s t : State} :
    execInit s = .next t ↔
      s.pc.toNat + 1 ≤ 255 ∧ t = { s.setSel 0 with pc := BitVec.ofNat 8 (s.pc.toNat + 1) } :=
  advance_eq_next

theorem execSet_eq_next {n : Byte} {s t : State} :
    execSet n s = .next t ↔
      ∃ i, toIndex n = some i ∧ s.pc.toNat + 2 ≤ 255 ∧
        t = { s.setSel i with pc := BitVec.ofNat 8 (s.pc.toNat + 2) } := by
  unfold execSet
  rw [needOperands_eq_next]
  cases hn : toIndex n with
  | none => simp
  | some i =>
    simp only [advance_eq_next, State.setSel_pc, Option.some.injEq, exists_eq_left']
    exact and_iff_right_of_imp fun h => by omega

theorem execSave_eq_next {n : Byte} {s t : State} :
    execSave n s = .next t ↔
      s.pc.toNat + 2 ≤ 255 ∧ t = { s.setSelected n with pc := BitVec.ofNat 8 (s.pc.toNat + 2) } := by
  unfold execSave
  rw [needOperands_eq_next, advance_eq_next]
  exact and_iff_right_of_imp fun h => by have := h.1; simp only [State.setSelected_pc] at this; omega

theorem binary_eq_next {op : Byte → Byte → Byte} {a b : Byte} {s t : State} :
    binary op a b s = .next t ↔
      ∃ i j, toIndex a = some i ∧ toIndex b = some j ∧ s.pc.toNat + 3 ≤ 255 ∧
        t = { s.setSelected (op (s.x i) (s.x j)) with pc := BitVec.ofNat 8 (s.pc.toNat + 3) } := by
  unfold binary
  rw [fetchAB_eq_next]
  simp only [advance_eq_next, State.setSelected_pc]
  refine and_iff_right_of_imp ?_
  rintro ⟨i, j, _, _, h, _⟩
  omega

theorem execDiv_eq_next {a b : Byte} {s t : State} :
    execDiv a b s = .next t ↔
      ∃ i j, toIndex a = some i ∧ toIndex b = some j ∧
        ((s.x j = 0 ∧ s.pc.toNat + 2 ≤ 255 ∧ t = s.takeFault (.divisionByZero i j)) ∨
         (s.x j ≠ 0 ∧ s.pc.toNat + 3 ≤ 255 ∧
          t = { s.setSelected (aluDiv (s.x i) (s.x j)) with pc := BitVec.ofNat 8 (s.pc.toNat + 3) })) := by
  unfold execDiv
  rw [fetchAB_eq_next]
  constructor
  · rintro ⟨h2, i, j, hi, hj, h⟩
    refine ⟨i, j, hi, hj, ?_⟩
    split at h
    · next h0 => exact Or.inl ⟨h0, h2, (Host.Outcome.next.inj h).symm⟩
    · next h0 => exact Or.inr ⟨h0, advance_eq_next.mp h⟩
  · rintro ⟨i, j, hi, hj, ⟨h0, h2, rfl⟩ | ⟨h0, h3, rfl⟩⟩
    · exact ⟨h2, i, j, hi, hj, by rw [if_pos h0]⟩
    · exact ⟨by omega, i, j, hi, hj, by rw [if_neg h0]; exact advance_eq_next.mpr ⟨h3, rfl⟩⟩

theorem execInc_eq_next {s t : State} :
    execInc s = .next t ↔
      s.pc.toNat + 1 ≤ 255 ∧
        t = { s.setSelected (aluInc s.selected) with pc := BitVec.ofNat 8 (s.pc.toNat + 1) } :=
  advance_eq_next

theorem execDec_eq_next {s t : State} :
    execDec s = .next t ↔
      s.pc.toNat + 1 ≤ 255 ∧
        t = { s.setSelected (aluDec s.selected) with pc := BitVec.ofNat 8 (s.pc.toNat + 1) } :=
  advance_eq_next

theorem execPrn_eq_next {s t : State} :
    execPrn s = .next t ↔
      s.pc.toNat + 1 ≤ 255 ∧
        t = { s.emit (.printed s.selected) with pc := BitVec.ofNat 8 (s.pc.toNat + 1) } :=
  advance_eq_next

theorem execPra_eq_next {s t : State} :
    execPra s = .next t ↔
      s.pc.toNat + 1 ≤ 255 ∧
        t = { s.emit (.printedChar s.selected) with pc := BitVec.ofNat 8 (s.pc.toNat + 1) } :=
  advance_eq_next

theorem execPush_eq_next {s t : State} :
    execPush s = .next t ↔
      s.sp ≠ 0 ∧ s.pc.toNat + 1 ≤ 255 ∧
        t = { pushed s.selected.toNat s with pc := BitVec.ofNat 8 (s.pc.toNat + 1) } := by
  unfold execPush
  rw [pushing_eq_next, advance_eq_next]
  rfl

theorem execPop_eq_next {s t : State} :
    execPop s = .next t ↔
      s.sp ≠ 255 ∧ s.pc.toNat + 1 ≤ 255 ∧
        t = { s.setSelected (s.memRead s.sp) with sp := s.sp + 1, pc := BitVec.ofNat 8 (s.pc.toNat + 1) } := by
  unfold execPop
  rw [popping_eq_next, advance_eq_next]
  rfl

theorem execCall_eq_next {s t : State} :
    execCall s = .next t ↔ s.sp ≠ 0 ∧ t = { pushed (s.pc.toNat + 1) s with pc := s.selected } := by
  unfold execCall
  rw [pushing_eq_next, jump_eq_next]

theorem execRet_eq_next {s t : State} :
    execRet s = .next t ↔ s.sp ≠ 255 ∧ t = { s with sp := s.sp + 1, pc := s.memRead s.sp } := by
  unfold execRet
  rw [popping_eq_next, jump_eq_next]

/-! ### The meanings: when each is refused, and why -/

theorem execHalt_ne_refused {s : State} {r : Refusal} : execHalt s ≠ .refused r := by
  simp [execHalt]

theorem execSet_eq_refused {n : Byte} {s : State} {r : Refusal} :
    execSet n s = .refused r ↔
      (255 < s.pc.toNat + 1 ∧ r = .uOperandFetch) ∨
      (s.pc.toNat + 1 ≤ 255 ∧ toIndex n = none ∧ r = .uSelRange) ∨
      (s.pc.toNat + 1 ≤ 255 ∧ toIndex n ≠ none ∧ 255 < s.pc.toNat + 2 ∧ r = .uPcAdvance) := by
  unfold execSet
  rw [needOperands_eq_refused]
  cases toIndex n <;> simp [advance_eq_refused, eq_comm (a := r)]

theorem execSave_eq_refused {n : Byte} {s : State} {r : Refusal} :
    execSave n s = .refused r ↔
      (255 < s.pc.toNat + 1 ∧ r = .uOperandFetch) ∨
      (s.pc.toNat + 1 ≤ 255 ∧ 255 < s.pc.toNat + 2 ∧ r = .uPcAdvance) := by
  unfold execSave
  rw [needOperands_eq_refused, advance_eq_refused, State.setSelected_pc]

theorem binary_eq_refused {op : Byte → Byte → Byte} {a b : Byte} {s : State} {r : Refusal} :
    binary op a b s = .refused r ↔
      (255 < s.pc.toNat + 2 ∧ r = .uOperandFetch) ∨
      (s.pc.toNat + 2 ≤ 255 ∧ (toIndex a = none ∨ toIndex b = none) ∧ r = .uRegIndex) ∨
      (s.pc.toNat + 2 ≤ 255 ∧ ∃ i j, toIndex a = some i ∧ toIndex b = some j ∧
        255 < s.pc.toNat + 3 ∧ r = .uPcAdvance) := by
  unfold binary
  rw [fetchAB_eq_refused]
  simp only [advance_eq_refused, State.setSelected_pc]

theorem execDiv_eq_refused {a b : Byte} {s : State} {r : Refusal} :
    execDiv a b s = .refused r ↔
      (255 < s.pc.toNat + 2 ∧ r = .uOperandFetch) ∨
      (s.pc.toNat + 2 ≤ 255 ∧ (toIndex a = none ∨ toIndex b = none) ∧ r = .uRegIndex) ∨
      (s.pc.toNat + 2 ≤ 255 ∧ ∃ i j, toIndex a = some i ∧ toIndex b = some j ∧ s.x j ≠ 0 ∧
        255 < s.pc.toNat + 3 ∧ r = .uPcAdvance) := by
  unfold execDiv
  rw [fetchAB_eq_refused]
  refine or_congr_right (or_congr_right (and_congr_right fun _ => exists_congr fun i => exists_congr fun j =>
    and_congr_right fun _ => and_congr_right fun _ => ?_))
  split
  · next h => simp [h]
  · next h => rw [advance_eq_refused, State.setSelected_pc, and_iff_right h]

theorem execPush_eq_refused {s : State} {r : Refusal} :
    execPush s = .refused r ↔
      (s.sp = 0 ∧ r = .uSpLow) ∨ (s.sp ≠ 0 ∧ 255 < s.pc.toNat + 1 ∧ r = .uPcAdvance) := by
  unfold execPush
  rw [pushing_eq_refused, advance_eq_refused]
  rfl

theorem execPop_eq_refused {s : State} {r : Refusal} :
    execPop s = .refused r ↔
      (s.sp = 255 ∧ r = .uSpHigh) ∨ (s.sp ≠ 255 ∧ 255 < s.pc.toNat + 1 ∧ r = .uPcAdvance) := by
  unfold execPop
  rw [popping_eq_refused, advance_eq_refused]
  rfl

theorem execCall_eq_refused {s : State} {r : Refusal} : execCall s = .refused r ↔ s.sp = 0 ∧ r = .uSpLow := by
  unfold execCall
  rw [pushing_eq_refused, or_iff_left fun h => jump_ne_refused h.2]

theorem execRet_eq_refused {s : State} {r : Refusal} : execRet s = .refused r ↔ s.sp = 255 ∧ r = .uSpHigh := by
  unfold execRet
  rw [popping_eq_refused, or_iff_left fun h => jump_ne_refused h.2]

/-! ### A step of a running engine -/

/-- Taking operands from the bytes after the opcode fails exactly where an operand lies above address 255, and otherwise gives
the instruction of that mnemonic whose operands are those bytes (30_encoding.md R51, 40_engine.md R69). -/
theorem takeOperands_operandBytes (m : Mnemonic) (s : State) :
    (255 < s.pc.toNat + m.operandCount ∧ takeOperands m s.operandBytes = none) ∨
    (s.pc.toNat + m.operandCount ≤ 255 ∧ ∃ i rest, takeOperands m s.operandBytes = some (i, rest) ∧ i.mnemonic = m ∧
      i.operands = [s.mem.read (s.pc.toNat + 1), s.mem.read (s.pc.toNat + 2)].take m.operandCount) := by
  have hpc : s.pc.toNat < 256 := s.pc.isLt
  rcases s.operandBytes_cases with ⟨h, hb⟩ | ⟨h, hb⟩ | ⟨h, hb⟩ <;> rw [hb] <;> cases m <;>
    simp [takeOperands, Mnemonic.operandCount, Instr.mnemonic, Instr.operands] <;> omega

/-- Everything a step of a running engine can do, by what the byte at `pc` decodes to. -/
theorem step_running_cases {s : State} (hr : s.run = .running) :
    (decodeOpcode s.opcodeByte = none ∧
      step s = .next (s.start.takeFault (.unknownOpcode s.pc s.opcodeByte))) ∨
    (∃ m, decodeOpcode s.opcodeByte = some m ∧ 255 < s.pc.toNat + m.operandCount ∧ step s = .refused .uOperandFetch) ∨
    (∃ i, decodeOpcode s.opcodeByte = some i.mnemonic ∧ s.pc.toNat + i.mnemonic.operandCount ≤ 255 ∧
      i.operands = [s.mem.read (s.pc.toNat + 1), s.mem.read (s.pc.toNat + 2)].take i.mnemonic.operandCount ∧
      step s = exec i s.start) := by
  rcases stepWith_cases defaultOpc s with h | h | ⟨m, h⟩ | ⟨m, i, rest, h⟩
  · rw [hr] at h
    cases h.1
  · exact Or.inl h.2
  · refine Or.inr (Or.inl ⟨m, h.2.1, ?_, h.2.2.2⟩)
    rcases takeOperands_operandBytes m s with h' | ⟨_, i, rest, h', _⟩
    · exact h'.1
    · rw [h.2.2.1] at h'
      cases h'
  · refine Or.inr (Or.inr ⟨i, ?_⟩)
    rcases takeOperands_operandBytes m s with h' | ⟨hp, i', rest', h', hm, ho⟩
    · rw [h.2.2.1] at h'
      cases h'.2
    · rw [h.2.2.1] at h'
      cases h'
      subst hm
      exact ⟨h.2.1, hp, ho, h.2.2.2⟩

end Sys2Proof.Machine
end

