-- ==== Sys2Proof/Laws/PerInstr.lean ====
section
/-! SUPPORT. A statement about the encoding of every instruction, one lemma per constructor. -/

/-- The encoding of an instruction is its opcode followed by its operand bytes, "Width = 1 + operand count" bytes in all
(30_encoding.md R50), under every opcode map. -/
def Sys2Proof.Laws.EncodingWidth.Statement (i : Sys2Proof.Instr) : Prop :=
  ∀ opc : Sys2Proof.Mnemonic → Sys2Proof.Byte,
    (Sys2Proof.encodeWith opc i).head? = some (opc i.mnemonic) ∧
    (Sys2Proof.encodeWith opc i).length = i.mnemonic.width ∧ i.mnemonic.width ≤ 3

namespace Sys2Proof.Laws.EncodingWidth

theorem halt : Statement .halt := fun _ => ⟨rfl, rfl, by decide⟩
theorem init : Statement .init := fun _ => ⟨rfl, rfl, by decide⟩
theorem set (n : Byte) : Statement (.set n) := fun _ => ⟨rfl, rfl, by simp [Instr.mnemonic, Mnemonic.width, Mnemonic.operandCount]⟩
theorem save (n : Byte) : Statement (.save n) := fun _ => ⟨rfl, rfl, by simp [Instr.mnemonic, Mnemonic.width, Mnemonic.operandCount]⟩
theorem mul (a b : Byte) : Statement (.mul a b) := fun _ => ⟨rfl, rfl, by simp [Instr.mnemonic, Mnemonic.width, Mnemonic.operandCount]⟩
theorem prn : Statement .prn := fun _ => ⟨rfl, rfl, by decide⟩
theorem pra : Statement .pra := fun _ => ⟨rfl, rfl, by decide⟩
theorem add (a b : Byte) : Statement (.add a b) := fun _ => ⟨rfl, rfl, by simp [Instr.mnemonic, Mnemonic.width, Mnemonic.operandCount]⟩
theorem sub (a b : Byte) : Statement (.sub a b) := fun _ => ⟨rfl, rfl, by simp [Instr.mnemonic, Mnemonic.width, Mnemonic.operandCount]⟩
theorem div (a b : Byte) : Statement (.div a b) := fun _ => ⟨rfl, rfl, by simp [Instr.mnemonic, Mnemonic.width, Mnemonic.operandCount]⟩
theorem inc : Statement .inc := fun _ => ⟨rfl, rfl, by decide⟩
theorem dec : Statement .dec := fun _ => ⟨rfl, rfl, by decide⟩
theorem push : Statement .push := fun _ => ⟨rfl, rfl, by decide⟩
theorem pop : Statement .pop := fun _ => ⟨rfl, rfl, by decide⟩
theorem call : Statement .call := fun _ => ⟨rfl, rfl, by decide⟩
theorem ret : Statement .ret := fun _ => ⟨rfl, rfl, by decide⟩

end Sys2Proof.Laws.EncodingWidth
end

