-- ==== Sys2Proof/Laws/Safety.lean ====
section
/-! SUPPORT. The words of Safety.lean in terms of the operations of the machine. -/

namespace Sys2Proof.Machine

/-- The register an index operand names. -/
theorem State.xOf_of_toIndex {s : State} {n : Byte} {i : RegIdx} (h : toIndex n = some i) : s.xOf n = s.x i := by
  have hn := toIndex_eq_some.mp h
  have hi := i.isLt
  unfold State.xOf
  rw [dif_pos (by omega)]
  exact congrArg s.x (Fin.ext hn)

/-- A legal index operand is a register index. -/
theorem toIndex_of_le {n : Byte} (h : n.toNat ≤ 7) : toIndex n = some ⟨n.toNat, Nat.lt_succ_of_le h⟩ :=
  toIndex_eq_some.mpr rfl

/-- `legalIndex` says that `toIndex` answers. -/
theorem legalIndex_eq_true {n : Byte} : legalIndex n = true ↔ ∃ i, toIndex n = some i := by
  unfold legalIndex
  rw [decide_eq_true_eq]
  constructor
  · exact fun h => ⟨_, toIndex_of_le h⟩
  · rintro ⟨i, hi⟩
    have := toIndex_eq_some.mp hi
    omega

/-- Nothing changed where nothing is listed. -/
theorem SameExcept.refl (changed : List Element) (s : State) : SameExcept changed s s := by
  simp [SameExcept]

/-- A running state's status is `Continue`. -/
theorem State.status_of_running {s : State} (h : s.run = .running) : s.status = .continued := by
  simp [State.status, h]

/-- A halted state's status is terminal. -/
theorem State.status_of_halted {s : State} (h : s.run = .halted) : s.status = terminalStatus s.fault := by
  simp [State.status, h]

end Sys2Proof.Machine
end

