-- ==== Sys2Proof/Tests/Slice0.lean ====
section
/-! SUPPORT. The model's own tests: well-formedness, decoding of words written out from the spec's encoding, one step of each
instruction on the spec's vectors (95_test_vectors.md, whose ids are in the comments), and for every statement with hypotheses
a state and operands that meet them. -/

namespace Sys2Proof.Tests

open Sys2Proof Sys2Proof.Machine

/-! ### Builders -/

/-- The reset state with `pc` at an address and code there. -/
def coded (pc : Byte) (code : List Byte) : State :=
  { State.reset with pc := pc, mem := State.reset.mem.placeBytes pc.toNat code }

/-- The reset state with `pc` and `sp` given. -/
def standing (pc sp : Byte) : State := { State.reset with pc := pc, sp := sp }

/-! ### Well-formedness: each check refuses an ill-formed term (30_encoding.md R52, R53) -/

theorem test_wf_set : (Instr.set 7).wellFormed = true ∧ (Instr.set 8).wellFormed = false := by decide
theorem test_wf_save : (Instr.save 255).wellFormed = true := by decide
theorem test_wf_mul : (Instr.mul 7 7).wellFormed = true ∧ (Instr.mul 8 0).wellFormed = false ∧ (Instr.mul 0 8).wellFormed = false := by decide
theorem test_wf_add : (Instr.add 7 7).wellFormed = true ∧ (Instr.add 255 0).wellFormed = false ∧ (Instr.add 0 8).wellFormed = false := by decide
theorem test_wf_sub : (Instr.sub 7 7).wellFormed = true ∧ (Instr.sub 8 0).wellFormed = false ∧ (Instr.sub 0 16).wellFormed = false := by decide
theorem test_wf_div : (Instr.div 7 7).wellFormed = true ∧ (Instr.div 9 0).wellFormed = false ∧ (Instr.div 0 8).wellFormed = false := by decide

/-! ### Decoding: words written out bit by bit (30_encoding.md R51, R56) -/

theorem test_decode_halt : decode [0b00000000] = .ok (.halt, []) := rfl
theorem test_decode_init : decode [0b00000001] = .ok (.init, []) := rfl
theorem test_decode_set : decode [0b00000010, 0b00000101] = .ok (.set 5, []) := rfl
theorem test_decode_save : decode [0b00000100, 0b10000001] = .ok (.save 129, []) := rfl
theorem test_decode_mul : decode [0b00000101, 0b00000001, 0b00000110] = .ok (.mul 1 6, []) := rfl
theorem test_decode_prn : decode [0b00000110] = .ok (.prn, []) := rfl
theorem test_decode_pra : decode [0b00000111] = .ok (.pra, []) := rfl
theorem test_decode_add : decode [0b00001000, 0b00000010, 0b00000011] = .ok (.add 2 3, []) := rfl
theorem test_decode_sub : decode [0b00001001, 0b00000100, 0b00000000] = .ok (.sub 4 0, []) := rfl
theorem test_decode_div : decode [0b00001010, 0b00000111, 0b00000001] = .ok (.div 7 1, []) := rfl
theorem test_decode_inc : decode [0b00001011] = .ok (.inc, []) := rfl
theorem test_decode_dec : decode [0b00001100] = .ok (.dec, []) := rfl
theorem test_decode_push : decode [0b00001101] = .ok (.push, []) := rfl
theorem test_decode_pop : decode [0b00001110] = .ok (.pop, []) := rfl
theorem test_decode_call : decode [0b00001111] = .ok (.call, []) := rfl
theorem test_decode_ret : decode [0b00010000] = .ok (.ret, []) := rfl
theorem test_decode_unassigned : decode [0b00000011] = .error (.unknownOpcode 3) ∧ decode [0b00010001] = .error (.unknownOpcode 17) := ⟨rfl, rfl⟩
theorem test_decode_cut_short : decode [0b00000101, 0b00000001] = .error (.missingOperand .mul) ∧ decode [] = .error .noByte := ⟨rfl, rfl⟩
theorem test_decode_illegal_index : decode [0b00000010, 0b00001000] = .ok (.set 8, []) := rfl
theorem test_table_word_sub : decodeTableWord 24 0x050209 = some (.sub 2 5) := by decide
theorem test_table_word_short : decodeTableWord 8 0x02 = some (.set 0) := by decide
theorem test_fetch_word : nextOf (step (State.reset.withFetchWord 16 0x0702)) = nextOf (exec (.set 7) (State.reset.withFetchWord 16 0x0702).start) := by decide

/-! ### One step of each instruction (95_test_vectors.md) -/

/-- A2. -/
theorem test_halt_at_255 : (nextOf (step (coded 255 [0x00]))).map (fun t => (t.run, t.pc, t.status)) = some (.halted, 255, .halted) := by decide
/-- A4. -/
theorem test_init_clears_sel : (nextOf (step { coded 9 [0x01] with sel := 5 })).map (fun t => (t.sel, t.pc, t.status)) = some (0, 10, .continued) := by decide
/-- A12. -/
theorem test_set_at_253 : (nextOf (step (coded 253 [0x02, 0x01]))).map (fun t => (t.sel, t.pc)) = some (1, 255) := by decide
/-- A8. -/
theorem test_set_eight_refused : refusalOf (step (coded 0 [0x02, 0x08])) = some .uSelRange := by decide
/-- A13. -/
theorem test_save_into_selected : (nextOf (step { coded 2 [0x04, 0x2A] with sel := 3 })).map (fun t => (t.x 3, t.x 0, t.pc)) = some (42, 0, 4) := by decide
/-- A16. -/
theorem test_save_at_254 : refusalOf (step (coded 254 [0x04, 0x05])) = some .uPcAdvance := by decide
/-- B3. -/
theorem test_mul_low_byte : (nextOf (step { ((coded 0 [0x05, 0x00, 0x01]).setX 0 255).setX 1 255 with sel := 2 })).map (fun t => (t.x 2, t.pc)) = some (1, 3) := by decide
/-- B5: a source is the destination. -/
theorem test_mul_into_source : (nextOf (step (((coded 0 [0x05, 0x00, 0x01]).setX 0 20).setX 1 13))).map (fun t => (t.x 0, t.x 1)) = some (4, 13) := by decide
/-- B8. -/
theorem test_add_wraps : (nextOf (step { ((coded 0 [0x08, 0x02, 0x03]).setX 2 200).setX 3 100 with sel := 2 })).map (fun t => (t.x 2, t.x 3)) = some (44, 100) := by decide
/-- B15: the order of the operands. -/
theorem test_sub_order : (nextOf (step (((coded 0 [0x09, 0x01, 0x00]).setX 0 5).setX 1 10))).map (fun t => t.x 0) = some 5 := by decide
/-- B14. -/
theorem test_sub_wraps : (nextOf (step (((coded 0 [0x09, 0x00, 0x01]).setX 0 5).setX 1 10))).map (fun t => t.x 0) = some 251 := by decide
/-- B28: the destination is the divisor register. -/
theorem test_div_floor : (nextOf (step { ((coded 0 [0x0A, 0x00, 0x01]).setX 0 100).setX 1 7 with sel := 1 })).map (fun t => (t.x 0, t.x 1, t.pc)) = some (100, 14, 3) := by decide
/-- B38: the fault comes before the check of `pc`. -/
theorem test_div_by_zero_at_253 : (nextOf (step ((coded 253 [0x0A, 0x00, 0x01]).setX 0 5))).map (fun t => (t.status, t.pc, t.x 0)) = some (.faulted (.divisionByZero 0 1), 253, 5) := by decide
/-- B42. -/
theorem test_inc_wraps : (nextOf (step { (coded 6 [0x0B]).setX 4 255 with sel := 4 })).map (fun t => (t.x 4, t.pc)) = some (0, 7) := by decide
/-- B44. -/
theorem test_dec_wraps : (nextOf (step { (coded 6 [0x0C]).setX 4 0 with sel := 4 })).map (fun t => (t.x 4, t.pc)) = some (255, 7) := by decide
/-- C1. -/
theorem test_push : (nextOf (step ((coded 4 [0x0D]).setX 0 42))).map (fun t => (t.memRead 0xFE, t.memRead 0xFF, t.sp, t.pc)) = some (42, 0, 0xFE, 5) := by decide
/-- C3. -/
theorem test_push_at_zero_refused : refusalOf (step { coded 4 [0x0D] with sp := 0 }) = some .uSpLow := by decide
/-- C4. -/
theorem test_pop : (nextOf (step { coded 7 [0x0E] with sp := 0xFE, mem := [(7, 0x0E), (0xFE, 42)] })).map (fun t => (t.x 0, t.sp, t.pc, t.memRead 0xFE)) = some (42, 0xFF, 8, 42) := by decide
/-- C5. -/
theorem test_pop_empty_refused : refusalOf (step (coded 0 [0x0E])) = some .uSpHigh := by decide
/-- C7. -/
theorem test_call : (nextOf (step { (coded 4 [0x0F]).setX 2 10 with sel := 2 })).map (fun t => (t.memRead 0xFE, t.sp, t.pc, t.x 2)) = some (5, 0xFE, 10, 10) := by decide
/-- C8: the return address at 255 is masked. -/
theorem test_call_at_255 : (nextOf (step { (coded 255 [0x0F]).setX 0 0x20 with sp := 0x80 })).map (fun t => (t.memRead 0x7F, t.sp, t.pc)) = some (0, 0x7F, 0x20) := by decide
/-- C14. -/
theorem test_ret_at_255 : (nextOf (step { State.reset with pc := 255, sp := 0xFE, mem := [(0xFE, 0x30), (0xFF, 0x10)] })).map (fun t => (t.pc, t.sp)) = some (0x30, 0xFF) := by decide
/-- D1. -/
theorem test_prn : (nextOf (step { (coded 11 [0x06]).setX 1 72 with sel := 1 })).map (fun t => (t.out, t.pc, t.x 1)) = some ([.printed 72], 12, 72) := by decide
/-- D8, after an earlier event: the order of events. -/
theorem test_pra_appends : (nextOf (step { (coded 0 [0x07]).setX 0 200 with out := [.printed 1] })).map (fun t => t.out) = some [.printed 1, .printedChar 200] := by decide

/-! ### The engine and the host (95_test_vectors.md part 2.5) -/

/-- E2. -/
theorem test_unknown_opcode : (nextOf (step (coded 17 [0xFF]))).map (fun t => (t.status, t.pc, t.started)) = some (.faulted (.unknownOpcode 17 255), 17, true) := by decide
/-- E4. -/
theorem test_reset_step_halts : (nextOf (step State.reset)).map (fun t => (t.status, t.pc)) = some (.halted, 0) := by decide
/-- B34: the index check comes before the divisor test. -/
theorem test_index_before_divisor : refusalOf (step (coded 0 [0x0A, 0x09, 0x01])) = some .uRegIndex := by decide
/-- E6. -/
theorem test_load_masks : (nextOf (load 5 0x1FF State.reset)).map (fun t => t.memRead 5) = some 0xFF := by decide
/-- E7 and E8. -/
theorem test_load_refusals : refusalOf (load 256 1 State.reset) = some .uLoadAddr ∧ refusalOf (load 0 1 State.reset.start) = some .uLoadLate := by decide
/-- E11: reset of a halted engine. -/
theorem test_reset_clears : hostReset ((coded 0 [0x03]).takeFault (.unknownOpcode 0 3)) = State.reset := by decide
/-- 40_engine.md R75: reading the events alters nothing. -/
theorem test_consume_output : consumeOutput { State.reset with out := [.printed 5] } = ([.printed 5], { State.reset with out := [.printed 5] }) := by decide

/-! ### Witnesses: a state and operands for the hypotheses of each statement, at the ends of each range -/

/-- DecodeInvertsOpc, DecodeOfEncodeGivesItBack, UnknownOpcodesNumber240. -/
theorem witness_default_opc_is_injective : Function.Injective defaultOpc := by
  intro a b h
  cases a <;> cases b <;> first | rfl | exact absurd h (by decide)

/-- FormatsListOpcodeThenOperands, each clause about `pc`. -/
theorem witness_formats :
    (coded 253 [0x05, 1, 2]).pc.toNat ≤ 253 ∧ (coded 253 [0x05, 1, 2]).operandBytes = [1, 2] ∧
    (coded 254 [0x02, 1]).pc.toNat = 254 ∧ (coded 254 [0x02, 1]).operandBytes = [1] ∧
    (coded 255 [0x01]).pc.toNat = 255 ∧ (coded 255 [0x01]).operandBytes = [] := by decide

/-- DecodedBytesAreItsEncoding. -/
theorem witness_decoded_bytes : decodeWith defaultOpc [0x0A, 7, 0, 0xAA] = .ok (.div 7 0, [0xAA]) := rfl

/-- UnknownOpcodeTakesItsFault, FaultStepChangesNothingElse. -/
theorem witness_unknown_opcode :
    (coded 255 [0x11]).run = .running ∧ (∀ m, (coded 255 [0x11]).opcodeByte ≠ defaultOpc m) ∧
    (nextOf (step (coded 255 [0x11]))).map (fun t => t.fault) = some (some (.unknownOpcode 255 0x11)) ∧
    (coded 255 [0x11]).fault = none :=
  ⟨rfl, fun m => by cases m <;> decide, by decide, rfl⟩

/-- WritingThePresentByteChangesNothing and CanonicalMemoryIsFixedByItsCells: canonical memories, the edges listed. -/
theorem witness_canonical : Memory.wf [(0, 1), (255, 7)] = true ∧ (State.reset.memWrite 255 7).mem.wf = true := by decide

/-- CanonicalMemoryIsFixedByItsCells. -/
theorem witness_same_cells (a : Nat) (_ : a < 256) : Memory.read [(0, 1), (255, 7)] a = (((Memory.write [] 255 7).write 3 9).write 3 0 |>.write 0 1).read a := rfl

/-- ZeroedMemoryHaltsOrFaults: an opcode map that leaves 0x00 unassigned. -/
theorem witness_zero_unassigned : ∀ m, (fun m => defaultOpc m + 1) m ≠ 0 := by
  intro m
  cases m <;> decide

/-- LoadWritesOneCellBeforeTheFirstStep, each clause. -/
theorem witness_load :
    State.reset.started = false ∧ (nextOf (load 0 1 State.reset)).isSome ∧ (nextOf (load 255 1 State.reset)).isSome ∧
    State.reset.start.started = true ∧ refusalOf (load (-1) 1 State.reset) = some .uLoadAddr ∧
    refusalOf (load 256 1 State.reset) = some .uLoadAddr := by decide

/-- LoadsCommuteAndTheLastWins: different cells, and the same cell. -/
theorem witness_loads :
    State.reset.mem.wf = true ∧ State.reset.started = false ∧ (0 : Int) ≠ 255 ∧
    (nextOf (load 0 1 State.reset)).bind (fun t => nextOf (load 255 2 t)) = (nextOf (load 255 2 State.reset)).bind (fun t => nextOf (load 0 1 t)) ∧
    (nextOf (load 255 1 State.reset)).bind (fun t => nextOf (load 255 2 t)) = nextOf (load 255 2 State.reset) := by decide

/-- LoadedBytesStandInOrder, up to the last cell. -/
theorem witness_load_bytes :
    254 + [3, 0x104].length ≤ 256 ∧ (nextOf (loadBytes 254 [3, 0x104] State.reset)).map (fun t => t.mem) = some [(254, 3), (255, 4)] := by decide

/-- EndedRunStaysEnded, with each terminal status. -/
theorem witness_ended :
    drive 1 State.reset = .ended State.reset.halt.start .halted ∧
    drive 1 (coded 0 [0x03]) = .ended ((coded 0 [0x03]).start.takeFault (.unknownOpcode 0 3)) (.faulted (.unknownOpcode 0 3)) := by decide

/-- StepRunsTheDecodedInstruction. -/
theorem witness_step_runs : (coded 255 [0x0F]).run = .running ∧ decodeWith defaultOpc ((coded 255 [0x0F]).opcodeByte :: (coded 255 [0x0F]).operandBytes) = .ok (.call, []) := ⟨rfl, rfl⟩

/-- HaltedStepIsANoOp, HaltedEngineNeverResumes, LatchedFaultNeverChanges. -/
theorem witness_halted :
    State.reset.halt.start.run = .halted ∧ State.reset.halt.start.started = true ∧ State.reset.halt.start.fault = none ∧
    (State.reset.start.takeFault (.divisionByZero 0 7)).run = .halted ∧
    (State.reset.start.takeFault (.divisionByZero 0 7)).fault = some (.divisionByZero 0 7) ∧
    nextOf (step (State.reset.start.takeFault (.divisionByZero 0 7))) = some (State.reset.start.takeFault (.divisionByZero 0 7)) := by decide

/-- LatchedFaultNeverChanges: the invariant of that state. -/
theorem witness_faulted_inv : (State.reset.start.takeFault (.divisionByZero 0 7)).Inv := ⟨rfl, fun _ => rfl⟩

/-- OperandFetchRefusedExactly and StepRefusesForSixReasonsOnly, at each address where the check can fail. -/
theorem witness_operand_fetch :
    refusalOf (step (coded 255 [0x02])) = some .uOperandFetch ∧ refusalOf (step (coded 255 [0x04])) = some .uOperandFetch ∧
    refusalOf (step (coded 254 [0x05, 0])) = some .uOperandFetch ∧ refusalOf (step (coded 255 [0x0A])) = some .uOperandFetch := by decide

/-- IllegalIndexRefusedExactly. -/
theorem witness_illegal_index :
    refusalOf (step (coded 254 [0x02, 8])) = some .uSelRange ∧ refusalOf (step (coded 253 [0x08, 8, 0])) = some .uRegIndex ∧
    refusalOf (step (coded 253 [0x09, 0, 255])) = some .uRegIndex := by decide

/-- StackLimitRefusedExactly. -/
theorem witness_stack_limits :
    refusalOf (step { coded 255 [0x0D] with sp := 0 }) = some .uSpLow ∧ refusalOf (step { coded 255 [0x0F] with sp := 0 }) = some .uSpLow ∧
    refusalOf (step (coded 255 [0x0E])) = some .uSpHigh ∧ refusalOf (step (coded 255 [0x10])) = some .uSpHigh := by decide

/-- PcAdvanceRefusedExactly. -/
theorem witness_pc_advance :
    refusalOf (step (coded 255 [0x01])) = some .uPcAdvance ∧ refusalOf (step (coded 254 [0x02, 7])) = some .uPcAdvance ∧
    refusalOf (step (coded 253 [0x05, 7, 7])) = some .uPcAdvance ∧
    refusalOf (step ((coded 253 [0x0A, 0, 1]).setX 1 3)) = some .uPcAdvance ∧
    refusalOf (step { coded 255 [0x0D] with sp := 1 }) = some .uPcAdvance := by decide

/-- The completion clauses of the sixteen instructions, each at the highest address and the lowest or highest `sp` it allows:
also the hypothesis of the frame statements, for every constructor. -/
theorem witness_completions :
    (nextOf (exec .halt (standing 255 0))).isSome ∧ (nextOf (exec .init (standing 254 0))).isSome ∧
    (nextOf (exec (.set 7) (standing 253 0))).isSome ∧ (nextOf (exec (.save 255) (standing 253 0))).isSome ∧
    (nextOf (exec (.mul 7 7) (standing 252 0))).isSome ∧ (nextOf (exec .prn (standing 254 0))).isSome ∧
    (nextOf (exec .pra (standing 254 0))).isSome ∧ (nextOf (exec (.add 7 0) (standing 252 0))).isSome ∧
    (nextOf (exec (.sub 0 7) (standing 252 0))).isSome ∧ (nextOf (exec (.div 0 7) ((standing 252 0).setX 7 1))).isSome ∧
    (nextOf (exec (.div 0 7) (standing 253 0))).isSome ∧ (nextOf (exec .inc (standing 254 0))).isSome ∧
    (nextOf (exec .dec (standing 254 0))).isSome ∧ (nextOf (exec .push (standing 254 1))).isSome ∧
    (nextOf (exec .pop (standing 254 254))).isSome ∧ (nextOf (exec .call (standing 255 1))).isSome ∧
    (nextOf (exec .ret (standing 255 254))).isSome := by decide

/-- The refusal clauses of the instructions, each at an end of its range. -/
theorem witness_refusal_clauses :
    refusalOf (exec .init (standing 255 0)) = some .uPcAdvance ∧ refusalOf (exec (.set 7) (standing 255 0)) = some .uOperandFetch ∧
    refusalOf (exec (.set 8) (standing 254 0)) = some .uSelRange ∧ refusalOf (exec (.set 7) (standing 254 0)) = some .uPcAdvance ∧
    refusalOf (exec (.save 0) (standing 255 0)) = some .uOperandFetch ∧ refusalOf (exec (.save 0) (standing 254 0)) = some .uPcAdvance ∧
    refusalOf (exec (.mul 7 7) (standing 254 0)) = some .uOperandFetch ∧ refusalOf (exec (.mul 8 7) (standing 253 0)) = some .uRegIndex ∧
    refusalOf (exec (.mul 7 8) (standing 253 0)) = some .uRegIndex ∧ refusalOf (exec (.mul 7 7) (standing 253 0)) = some .uPcAdvance ∧
    refusalOf (exec (.add 7 7) (standing 254 0)) = some .uOperandFetch ∧ refusalOf (exec (.add 8 7) (standing 253 0)) = some .uRegIndex ∧
    refusalOf (exec (.add 7 7) (standing 253 0)) = some .uPcAdvance ∧
    refusalOf (exec (.sub 7 7) (standing 254 0)) = some .uOperandFetch ∧ refusalOf (exec (.sub 7 8) (standing 253 0)) = some .uRegIndex ∧
    refusalOf (exec (.sub 7 7) (standing 253 0)) = some .uPcAdvance ∧
    refusalOf (exec (.div 7 7) (standing 254 0)) = some .uOperandFetch ∧ refusalOf (exec (.div 8 7) (standing 253 0)) = some .uRegIndex ∧
    refusalOf (exec (.div 0 7) ((standing 253 0).setX 7 1)) = some .uPcAdvance ∧
    refusalOf (exec .inc (standing 255 0)) = some .uPcAdvance ∧ refusalOf (exec .dec (standing 255 0)) = some .uPcAdvance ∧
    refusalOf (exec .prn (standing 255 0)) = some .uPcAdvance ∧ refusalOf (exec .pra (standing 255 0)) = some .uPcAdvance ∧
    refusalOf (exec .push (standing 0 0)) = some .uSpLow ∧ refusalOf (exec .push (standing 255 1)) = some .uPcAdvance ∧
    refusalOf (exec .pop (standing 0 255)) = some .uSpHigh ∧ refusalOf (exec .pop (standing 255 254)) = some .uPcAdvance ∧
    refusalOf (exec .call (standing 0 0)) = some .uSpLow ∧ refusalOf (exec .ret (standing 0 255)) = some .uSpHigh := by decide

/-- PopUndoesPush and RetReturnsAfterCall, at the lowest `sp` and the highest address. -/
theorem witness_stack_pairs :
    (standing 253 1).sp ≠ 0 ∧ (standing 253 1).pc.toNat ≤ 253 ∧ (standing 255 1).sp ≠ 0 ∧
    ((nextOf (exec .push ((standing 253 1).setX 0 9))).bind (fun t => nextOf (exec .pop (t.setX t.sel 4)))).map (fun u => (u.x 0, u.sp)) = some (9, 1) ∧
    ((nextOf (exec .call (standing 255 1))).bind (fun t => nextOf (exec .ret t))).map (fun u => (u.pc, u.sp)) = some (0, 1) := by decide

/-- StoredByteIsFetchedNext, both clauses (C15 for PUSH), with a byte that is an opcode and one that is none. -/
theorem witness_stored_byte :
    (nextOf (exec .push ((standing 0xFD 0xFF).setX 0 6))).map (fun t => (t.pc == t.sp, t.opcodeByte, t.mnemonicAtPc)) = some (true, 6, some .prn) ∧
    (nextOf (exec .push ((standing 0xFD 0xFF).setX 0 0xC8))).map (fun t => (t.pc == t.sp, t.opcodeByte, t.mnemonicAtPc)) = some (true, 0xC8, none) ∧
    (nextOf (exec .call ((standing 5 0x80).setX 0 0x7F))).map (fun t => (t.pc == t.sp, t.opcodeByte, t.mnemonicAtPc)) = some (true, 6, some .prn) := by decide

/-- StepMovesPcByTheTable, StepAppendsItsEvent, EngineHaltsForThreeCausesOnly, EveryStepKeepsTheInvariant: a running state that
meets the invariant and whose step has a next state. -/
theorem witness_running_step : (coded 254 [0x06]).run = .running ∧ (nextOf (step (coded 254 [0x06]))).isSome ∧ (coded 254 [0x06]).mem.wf = true ∧ (coded 254 [0x06]).fault = none := by decide

/-- FaultOutputAndStartedAreNotRead: two different states that agree on the rest. -/
theorem witness_readable :
    State.reset.readable = { State.reset with out := [.printed 1], started := true, fault := some (.unknownOpcode 0 3) }.readable ∧
    State.reset ≠ { State.reset with out := [.printed 1], started := true, fault := some (.unknownOpcode 0 3) } := ⟨rfl, by decide⟩

/-- EveryStepKeepsTheInvariant: that state, and a halted state that keeps a fault, meet the whole invariant. -/
theorem witness_engine_inv : (coded 254 [0x06]).EngineInv ∧ (State.reset.start.takeFault (.divisionByZero 0 7)).EngineInv :=
  ⟨⟨⟨by decide, fun h => absurd rfl h⟩, fun h => RunState.noConfusion h⟩, ⟨⟨rfl, fun _ => rfl⟩, fun _ => rfl⟩⟩

/-- ReachableStatesMeetTheInvariant. -/
theorem witness_reachable : Reachable State.reset.start.halt := .step State.reset _ .reset rfl

end Sys2Proof.Tests
end

section
/-! The state's frames and every step's effect on each element (10_state.md): what each instruction writes, said once as a frame
of `exec`; what a step of a running engine answers; and that no step reads the fault record, the output stream or `started`. -/

namespace Sys2Proof.Machine

/-! ### The elements each instruction writes -/

/-- The elements of the state that an instruction may change when it answers a next state: the write columns of 10_state.md
R12 to R20, read by instruction. -/
def writes (m : Mnemonic) : List Element :=
  match m with
  | .halt => [.run]
  | .init => [.sel, .pc]
  | .set => [.sel, .pc]
  | .save => [.regs, .pc]
  | .mul => [.regs, .pc]
  | .prn => [.out, .pc]
  | .pra => [.out, .pc]
  | .add => [.regs, .pc]
  | .sub => [.regs, .pc]
  | .div => [.regs, .pc, .run, .fault]
  | .inc => [.regs, .pc]
  | .dec => [.regs, .pc]
  | .push => [.sp, .mem, .pc]
  | .pop => [.regs, .sp, .pc]
  | .call => [.sp, .mem, .pc]
  | .ret => [.sp, .pc]

theorem regs_mem_writes {m : Mnemonic} :
    .regs ∈ writes m ↔ m ∈ [Mnemonic.save, .mul, .add, .sub, .div, .inc, .dec, .pop] := by
  cases m <;> decide

theorem sp_mem_writes {m : Mnemonic} : .sp ∈ writes m ↔ m ∈ pushers ++ poppers := by
  cases m <;> decide

theorem sel_mem_writes {m : Mnemonic} : .sel ∈ writes m ↔ m ∈ [Mnemonic.init, .set] := by
  cases m <;> decide

theorem run_mem_writes {m : Mnemonic} : .run ∈ writes m ↔ m ∈ [Mnemonic.halt, .div] := by
  cases m <;> decide

theorem fault_mem_writes {m : Mnemonic} : .fault ∈ writes m ↔ m = .div := by
  cases m <;> decide

theorem out_mem_writes {m : Mnemonic} : .out ∈ writes m ↔ m ∈ [Mnemonic.prn, .pra] := by
  cases m <;> decide

theorem started_notMem_writes (m : Mnemonic) : .started ∉ writes m := by
  cases m <;> decide

/-- What MUL, ADD and SUB share: only the general registers and `pc` change. -/
theorem binary_sameExcept {op : Byte → Byte → Byte} {a b : Byte} {s t : State} (h : binary op a b s = .next t) :
    SameExcept [.regs, .pc] s t := by
  obtain ⟨i, j, -, -, -, rfl⟩ := binary_eq_next.mp h
  simp [SameExcept]

/-- The frame of `exec`: an instruction that answers a next state changes only the elements it writes. -/
theorem exec_sameExcept {i : Instr} {s t : State} (h : exec i s = .next t) : SameExcept (writes i.mnemonic) s t := by
  cases i with
  | halt => obtain rfl := execHalt_eq_next.mp h; simp [SameExcept, writes, Instr.mnemonic]
  | init => obtain ⟨-, rfl⟩ := execInit_eq_next.mp h; simp [SameExcept, writes, Instr.mnemonic]
  | set n => obtain ⟨i, -, -, rfl⟩ := execSet_eq_next.mp h; simp [SameExcept, writes, Instr.mnemonic]
  | save n => obtain ⟨-, rfl⟩ := execSave_eq_next.mp h; simp [SameExcept, writes, Instr.mnemonic]
  | mul a b => exact binary_sameExcept h
  | add a b => exact binary_sameExcept h
  | sub a b => exact binary_sameExcept h
  | div a b =>
    obtain ⟨i, j, -, -, ⟨-, -, rfl⟩ | ⟨-, -, rfl⟩⟩ := execDiv_eq_next.mp h
    · simp [SameExcept, writes, Instr.mnemonic]
    · simp [SameExcept, writes, Instr.mnemonic]
  | inc => obtain ⟨-, rfl⟩ := execInc_eq_next.mp h; simp [SameExcept, writes, Instr.mnemonic]
  | dec => obtain ⟨-, rfl⟩ := execDec_eq_next.mp h; simp [SameExcept, writes, Instr.mnemonic]
  | prn => obtain ⟨-, rfl⟩ := execPrn_eq_next.mp h; simp [SameExcept, writes, Instr.mnemonic]
  | pra => obtain ⟨-, rfl⟩ := execPra_eq_next.mp h; simp [SameExcept, writes, Instr.mnemonic]
  | push => obtain ⟨-, -, rfl⟩ := execPush_eq_next.mp h; simp [SameExcept, writes, Instr.mnemonic, pushed]
  | pop => obtain ⟨-, -, rfl⟩ := execPop_eq_next.mp h; simp [SameExcept, writes, Instr.mnemonic]
  | call => obtain ⟨-, rfl⟩ := execCall_eq_next.mp h; simp [SameExcept, writes, Instr.mnemonic, pushed]
  | ret => obtain ⟨-, rfl⟩ := execRet_eq_next.mp h; simp [SameExcept, writes, Instr.mnemonic]

/-! ### The frame, element by element -/

section
variable {i : Instr} {s t : State}

theorem exec_regs_of_not_writer (h : exec i s = .next t)
    (hi : i.mnemonic ∉ [Mnemonic.save, .mul, .add, .sub, .div, .inc, .dec, .pop]) : t.regs = s.regs := by
  obtain ⟨hregs, -⟩ := exec_sameExcept h
  exact hregs (mt regs_mem_writes.mp hi)

theorem exec_sp_of_not_stack (h : exec i s = .next t) (hi : i.mnemonic ∉ pushers ++ poppers) : t.sp = s.sp := by
  obtain ⟨-, -, hsp, -⟩ := exec_sameExcept h
  exact hsp (mt sp_mem_writes.mp hi)

theorem exec_sel_of_not_select (h : exec i s = .next t) (hi : i.mnemonic ∉ [Mnemonic.init, .set]) : t.sel = s.sel := by
  obtain ⟨-, -, -, hsel, -⟩ := exec_sameExcept h
  exact hsel (mt sel_mem_writes.mp hi)

theorem exec_run_of_not_halting (h : exec i s = .next t) (hi : i.mnemonic ∉ [Mnemonic.halt, .div]) : t.run = s.run := by
  obtain ⟨-, -, -, -, hrun, -⟩ := exec_sameExcept h
  exact hrun (mt run_mem_writes.mp hi)

theorem exec_fault_of_ne_div (h : exec i s = .next t) (hi : i.mnemonic ≠ .div) : t.fault = s.fault := by
  obtain ⟨-, -, -, -, -, hfault, -⟩ := exec_sameExcept h
  exact hfault (mt fault_mem_writes.mp hi)

theorem exec_out_of_not_output (h : exec i s = .next t) (hi : i.mnemonic ∉ [Mnemonic.prn, .pra]) : t.out = s.out := by
  obtain ⟨-, -, -, -, -, -, hout, -⟩ := exec_sameExcept h
  exact hout (mt out_mem_writes.mp hi)

theorem exec_started (h : exec i s = .next t) : t.started = s.started := by
  obtain ⟨-, -, -, -, -, -, -, hstarted, -⟩ := exec_sameExcept h
  exact hstarted (started_notMem_writes _)

/-- The one way an instruction writes the general registers: a value put in the selected one (possibly the value it has). -/
theorem exec_regs (h : exec i s = .next t) : ∃ v, t.regs = s.regs.set s.sel v := by
  cases i with
  | save n => obtain ⟨-, rfl⟩ := execSave_eq_next.mp h; exact ⟨_, rfl⟩
  | mul a b => obtain ⟨i, j, -, -, -, rfl⟩ := binary_eq_next.mp h; exact ⟨_, rfl⟩
  | add a b => obtain ⟨i, j, -, -, -, rfl⟩ := binary_eq_next.mp h; exact ⟨_, rfl⟩
  | sub a b => obtain ⟨i, j, -, -, -, rfl⟩ := binary_eq_next.mp h; exact ⟨_, rfl⟩
  | div a b =>
    obtain ⟨i, j, -, -, ⟨-, -, rfl⟩ | ⟨-, -, rfl⟩⟩ := execDiv_eq_next.mp h
    · exact ⟨s.x s.sel, (s.regs.set_get_self s.sel).symm⟩
    · exact ⟨_, rfl⟩
  | inc => obtain ⟨-, rfl⟩ := execInc_eq_next.mp h; exact ⟨_, rfl⟩
  | dec => obtain ⟨-, rfl⟩ := execDec_eq_next.mp h; exact ⟨_, rfl⟩
  | pop => obtain ⟨-, -, rfl⟩ := execPop_eq_next.mp h; exact ⟨_, rfl⟩
  | _ =>
    exact ⟨s.x s.sel, (exec_regs_of_not_writer h (by simp [Instr.mnemonic])).trans (s.regs.set_get_self s.sel).symm⟩

theorem exec_x_of_ne_sel (h : exec i s = .next t) {k : RegIdx} (hk : k ≠ s.sel) : t.x k = s.x k := by
  obtain ⟨v, hv⟩ := exec_regs h
  simp [State.x, hv, hk]

end

/-- Settles O47: a register write goes through the selected register, and `regs` is in the frame of every other instruction. -/
theorem onlyTheSelectedRegisterChanges : Obligations.OnlyTheSelectedRegisterChanges :=
  fun _ _ _ h => ⟨fun _ hk => exec_x_of_ne_sel h hk, exec_regs_of_not_writer h⟩

/-- Settles O49, from the frame of `exec`. -/
theorem selectionAndStackPointerFrame : Obligations.SelectionAndStackPointerFrame :=
  fun _ _ _ h => ⟨exec_sel_of_not_select h, exec_sp_of_not_stack h⟩

/-- Settles O50, from the frame of `exec`. -/
theorem outputRunAndFaultFrame : Obligations.OutputRunAndFaultFrame :=
  fun _ _ _ h => ⟨exec_out_of_not_output h, exec_run_of_not_halting h, exec_fault_of_ne_div h, exec_started h⟩

/-! ### What a step that has a next state did -/

/-- A step of a halted engine sets `started` and nothing else (40_engine.md R71). -/
theorem step_of_halted {s : State} (hr : s.run = .halted) : step s = .next s.start := by
  simp [step, stepWith, hr]

/-- A next state of a running engine comes from the unknown-opcode fault or from the instruction whose bytes stand at `pc`. -/
theorem step_running_next {s t : State} (hr : s.run = .running) (h : step s = .next t) :
    (s.mnemonicAtPc = none ∧ t = s.start.takeFault (.unknownOpcode s.pc s.opcodeByte)) ∨
    (∃ i, s.mnemonicAtPc = some i.mnemonic ∧
      i.operands = [s.codeByte 1, s.codeByte 2].take i.mnemonic.operandCount ∧ exec i s.start = .next t) := by
  rcases step_running_cases hr with ⟨hd, hs⟩ | ⟨m, -, -, hs⟩ | ⟨i, hd, -, ho, hs⟩
  · rw [hs] at h
    exact Or.inl ⟨hd, (Host.Outcome.next.inj h).symm⟩
  · rw [hs] at h
    cases h
  · exact Or.inr ⟨i, hd, ho, hs ▸ h⟩

/-- For a DIV at `pc`, dividing by zero is a question about its second operand byte. -/
theorem State.dividesByZero_of_operands {s : State} {a b : Byte}
    (ho : (Instr.div a b).operands = [s.codeByte 1, s.codeByte 2].take Mnemonic.div.operandCount) :
    s.dividesByZero .div ↔ s.start.xOf b = 0 := by
  obtain ⟨-, rfl⟩ : a = s.codeByte 1 ∧ b = s.codeByte 2 := by
    simpa [Instr.operands, Mnemonic.operandCount] using ho
  exact and_iff_right rfl

/-- The two ways a DIV answers: the fault, or the quotient in the selected register. -/
theorem execDiv_next_cases {a b : Byte} {s t : State} (h : execDiv a b s = .next t) :
    (s.xOf b = 0 ∧ ∃ f, t = s.takeFault f) ∨
    (s.xOf b ≠ 0 ∧ s.pc.toNat + 3 ≤ 255 ∧
      ∃ v, t = { s.setSelected v with pc := BitVec.ofNat 8 (s.pc.toNat + 3) }) := by
  obtain ⟨i, j, -, hj, h⟩ := execDiv_eq_next.mp h
  rw [State.xOf_of_toIndex hj]
  rcases h with ⟨h0, -, rfl⟩ | ⟨h0, hp, rfl⟩
  · exact Or.inl ⟨h0, _, rfl⟩
  · exact Or.inr ⟨h0, hp, _, rfl⟩

/-! ### The new `pc` (10_state.md R14) -/

/-- An address that lies in memory is the value of its byte. -/
theorem toNat_address {n : Nat} (h : n ≤ 255) : (BitVec.ofNat 8 n).toNat = n :=
  (BitVec.toNat_ofNat n 8).trans (Nat.mod_eq_of_lt (by omega))

/-- Every instruction but HALT, CALL, RET and DIV moves `pc` by its width. -/
theorem exec_pc_of_advancer {i : Instr} {s t : State} (h : exec i s = .next t) (hi : i.mnemonic ∈ advancers)
    (hd : i.mnemonic ≠ .div) : t.pc.toNat = s.pc.toNat + i.mnemonic.width := by
  cases i with
  | init => obtain ⟨hp, rfl⟩ := execInit_eq_next.mp h; exact toNat_address hp
  | set n => obtain ⟨i, -, hp, rfl⟩ := execSet_eq_next.mp h; exact toNat_address hp
  | save n => obtain ⟨hp, rfl⟩ := execSave_eq_next.mp h; exact toNat_address hp
  | mul a b => obtain ⟨i, j, -, -, hp, rfl⟩ := binary_eq_next.mp h; exact toNat_address hp
  | add a b => obtain ⟨i, j, -, -, hp, rfl⟩ := binary_eq_next.mp h; exact toNat_address hp
  | sub a b => obtain ⟨i, j, -, -, hp, rfl⟩ := binary_eq_next.mp h; exact toNat_address hp
  | inc => obtain ⟨hp, rfl⟩ := execInc_eq_next.mp h; exact toNat_address hp
  | dec => obtain ⟨hp, rfl⟩ := execDec_eq_next.mp h; exact toNat_address hp
  | prn => obtain ⟨hp, rfl⟩ := execPrn_eq_next.mp h; exact toNat_address hp
  | pra => obtain ⟨hp, rfl⟩ := execPra_eq_next.mp h; exact toNat_address hp
  | push => obtain ⟨-, hp, rfl⟩ := execPush_eq_next.mp h; exact toNat_address hp
  | pop => obtain ⟨-, hp, rfl⟩ := execPop_eq_next.mp h; exact toNat_address hp
  | div a b => exact absurd rfl hd
  | _ => simp [Instr.mnemonic, advancers] at hi

/-- Settles O51: the fault leaves `pc`, HALT, CALL, RET and DIV are read off their meanings, the rest advance. -/
theorem stepMovesPcByTheTable : Obligations.StepMovesPcByTheTable := by
  intro s t hr h
  rcases step_running_next hr h with ⟨hm, rfl⟩ | ⟨i, hm, ho, he⟩
  · rw [hm]
    rfl
  rw [hm]
  cases i with
  | halt => obtain rfl := execHalt_eq_next.mp he; rfl
  | call => obtain ⟨-, rfl⟩ := execCall_eq_next.mp he; rfl
  | ret => obtain ⟨-, rfl⟩ := execRet_eq_next.mp he; rfl
  | div a b =>
    change (s.dividesByZero .div → _) ∧ (¬ s.dividesByZero .div → _)
    rw [State.dividesByZero_of_operands ho]
    rcases execDiv_next_cases he with ⟨h0, f, rfl⟩ | ⟨h0, hp, v, rfl⟩
    · exact ⟨fun _ => rfl, fun hn => absurd h0 hn⟩
    · exact ⟨fun hz => absurd hz h0, fun _ => toNat_address hp⟩
  | _ =>
    have hpc := exec_pc_of_advancer he (by simp [Instr.mnemonic, advancers]) (by simp [Instr.mnemonic])
    exact hpc

/-! ### Output, halting and the latched fault (10_state.md R17 to R19) -/

/-- Settles O52: PRN and PRA emit their event, every other instruction and both faults leave the stream in their frame. -/
theorem stepAppendsItsEvent : Obligations.StepAppendsItsEvent := by
  intro s t h
  cases hr : s.run with
  | halted =>
    rw [step_of_halted hr] at h
    cases h
    simp
  | running =>
    rcases step_running_next hr h with ⟨hm, rfl⟩ | ⟨i, hm, -, he⟩
    · simp [hm]
    cases i with
    | prn => obtain ⟨-, rfl⟩ := execPrn_eq_next.mp he; simp [hm, Instr.mnemonic, State.selected]
    | pra => obtain ⟨-, rfl⟩ := execPra_eq_next.mp he; simp [hm, Instr.mnemonic, State.selected]
    | _ =>
      have hout := exec_out_of_not_output he (by simp [Instr.mnemonic])
      simp [hout, hm, Instr.mnemonic]

/-- Settles O53: `run` is in the frame of every instruction but HALT and DIV, and DIV halts only by its fault. -/
theorem engineHaltsForThreeCausesOnly : Obligations.EngineHaltsForThreeCausesOnly := by
  intro s t hr h
  rcases step_running_next hr h with ⟨hm, rfl⟩ | ⟨i, hm, ho, he⟩
  · simp [hm]
  cases i with
  | halt => obtain rfl := execHalt_eq_next.mp he; simp [hm, Instr.mnemonic]
  | div a b =>
    rw [State.dividesByZero_of_operands ho]
    rcases execDiv_next_cases he with ⟨h0, f, rfl⟩ | ⟨h0, -, v, rfl⟩
    · simp [hm, Instr.mnemonic, h0]
    · simpa [hm, Instr.mnemonic, hr] using h0
  | _ =>
    have hrun := exec_run_of_not_halting he (by simp [Instr.mnemonic])
    simp [hrun, hm, hr, Instr.mnemonic]

/-- Settles O55: by the invariant the engine is halted, so the step only sets `started`. -/
theorem latchedFaultNeverChanges : Obligations.LatchedFaultNeverChanges := by
  rintro s t f ⟨-, hhalted⟩ hf h
  rw [step_of_halted (hhalted (by simp [hf]))] at h
  cases h
  exact hf

/-! ### What a step reads (10_state.md R18 to R20) -/

/-- An outcome with its next state cut down to the part that instructions read. -/
def readPart (o : StepOutcome) : Host.Outcome (GeneralRegs × Byte × Byte × RegIdx × RunState × Memory) Fault Refusal :=
  match o with
  | .next t => .next t.readable
  | .fault f => .fault f
  | .refused r => .refused r

theorem readPart_eq_refused {o : StepOutcome} {r : Refusal} : readPart o = .refused r ↔ o = .refused r := by
  cases o <;> simp [readPart]

theorem readPart_eq_next {o : StepOutcome} {p : GeneralRegs × Byte × Byte × RegIdx × RunState × Memory} :
    readPart o = .next p ↔ ∃ t, o = .next t ∧ t.readable = p := by
  cases o <;> simp [readPart]

theorem State.readable_eq {s s' : State} :
    s.readable = s'.readable ↔
      s.regs = s'.regs ∧ s.pc = s'.pc ∧ s.sp = s'.sp ∧ s.sel = s'.sel ∧ s.run = s'.run ∧ s.mem = s'.mem := by
  simp [State.readable]

section
variable {s s' : State}

theorem ite_readPart {c : Prop} [Decidable c] {o o' p p' : StepOutcome} (ho : readPart o = readPart o')
    (hp : readPart p = readPart p') : readPart (if c then o else p) = readPart (if c then o' else p') := by
  split
  · exact ho
  · exact hp

theorem advance_readPart (h : s.readable = s'.readable) (w : Nat) :
    readPart (advance w s) = readPart (advance w s') := by
  obtain ⟨hregs, hpc, hsp, hsel, hrun, hmem⟩ := State.readable_eq.mp h
  unfold advance
  rw [hpc]
  split
  · rfl
  · simp [readPart, State.readable, hregs, hsp, hsel, hrun, hmem]

theorem needOperands_readPart (h : s.pc = s'.pc) {n : Nat} {rest rest' : StepOutcome}
    (hrest : readPart rest = readPart rest') :
    readPart (needOperands n s rest) = readPart (needOperands n s' rest') := by
  unfold needOperands
  rw [h]
  split
  · rfl
  · exact hrest

theorem fetchAB_readPart (h : s.pc = s'.pc) {a b : Byte} {rest rest' : RegIdx → RegIdx → StepOutcome}
    (hrest : ∀ i j, readPart (rest i j) = readPart (rest' i j)) :
    readPart (fetchAB a b s rest) = readPart (fetchAB a b s' rest') := by
  refine needOperands_readPart h ?_
  cases toIndex a with
  | none => rfl
  | some i =>
    cases toIndex b with
    | none => rfl
    | some j => exact hrest i j

theorem pushing_readPart (h : s.sp = s'.sp) {v : Nat} {rest rest' : State → StepOutcome}
    (hrest : readPart (rest (pushed v s)) = readPart (rest' (pushed v s'))) :
    readPart (pushing v s rest) = readPart (pushing v s' rest') := by
  unfold pushing
  by_cases h0 : s.sp = 0
  · rw [if_pos h0, if_pos (h ▸ h0)]
  · rw [if_neg h0, if_neg (h ▸ h0)]
    exact hrest

theorem popping_readPart (h : s.sp = s'.sp) {rest rest' : Byte → State → StepOutcome}
    (hrest : readPart (rest (s.memRead s.sp) { s with sp := s.sp + 1 }) =
      readPart (rest' (s'.memRead s'.sp) { s' with sp := s'.sp + 1 })) :
    readPart (popping s rest) = readPart (popping s' rest') := by
  unfold popping
  by_cases h255 : s.sp = 255
  · rw [if_pos h255, if_pos (h ▸ h255)]
  · rw [if_neg h255, if_neg (h ▸ h255)]
    exact hrest

/-- States that agree on what instructions read differ in the three other elements only. -/
theorem State.eq_of_readable_eq (h : s.readable = s'.readable) :
    s' = { s with fault := s'.fault, out := s'.out, started := s'.started } := by
  obtain ⟨hregs, hpc, hsp, hsel, hrun, hmem⟩ := State.readable_eq.mp h
  simp [hregs, hpc, hsp, hsel, hrun, hmem]

theorem binary_readPart (h : s.readable = s'.readable) (op : Byte → Byte → Byte) (a b : Byte) :
    readPart (binary op a b s) = readPart (binary op a b s') := by
  rw [State.eq_of_readable_eq h]
  exact fetchAB_readPart (by rfl) fun i j => advance_readPart (by rfl) 3

/-- An instruction has the same meaning, in the part of the state that instructions read, whatever the rest holds. The states
before each shared operation then differ in unread elements only, so its premise is `rfl`. -/
theorem exec_readPart (h : s.readable = s'.readable) (i : Instr) : readPart (exec i s) = readPart (exec i s') := by
  rw [State.eq_of_readable_eq h]
  cases i with
  | halt => rfl
  | init => exact advance_readPart (by rfl) 1
  | set n =>
    refine needOperands_readPart (by rfl) ?_
    cases toIndex n with
    | none => rfl
    | some i => exact advance_readPart (by rfl) 2
  | save n => exact needOperands_readPart (by rfl) (advance_readPart (by rfl) 2)
  | mul a b => exact binary_readPart (by rfl) aluMul a b
  | add a b => exact binary_readPart (by rfl) aluAdd a b
  | sub a b => exact binary_readPart (by rfl) aluSub a b
  | div a b =>
    refine fetchAB_readPart (by rfl) fun i j => ?_
    exact ite_readPart rfl (advance_readPart (by rfl) 3)
  | inc => exact advance_readPart (by rfl) 1
  | dec => exact advance_readPart (by rfl) 1
  | prn => exact advance_readPart (by rfl) 1
  | pra => exact advance_readPart (by rfl) 1
  | push => exact pushing_readPart (by rfl) (advance_readPart (by rfl) 1)
  | pop =>
    unfold exec execPop
    exact popping_readPart (by rfl) (advance_readPart (by rfl) 1)
  | call => exact pushing_readPart (by rfl) rfl
  | ret => exact popping_readPart (by rfl) rfl

/-- The same for a step, under every opcode map. -/
theorem stepWith_readPart (h : s.readable = s'.readable) (opc : Mnemonic → Byte) :
    readPart (stepWith opc s) = readPart (stepWith opc s') := by
  have hstart : s.start.readable = s'.start.readable := h
  obtain ⟨-, -, -, -, hrun, -⟩ := State.readable_eq.mp h
  have hopcode : s'.opcodeByte = s.opcodeByte := by rw [State.eq_of_readable_eq h]; rfl
  have hoperands : s'.operandBytes = s.operandBytes := by rw [State.eq_of_readable_eq h]; rfl
  unfold stepWith
  rw [hopcode, hoperands, ← hrun]
  cases s.run with
  | halted => exact congrArg Host.Outcome.next hstart
  | running =>
    cases decodeOpcodeWith opc s.opcodeByte with
    | none =>
      rw [State.eq_of_readable_eq h]
      rfl
    | some m =>
      dsimp only
      cases takeOperands m s.operandBytes with
      | none => rfl
      | some r => exact exec_readPart hstart r.1

end

/-- Settles O56: the readable part of a step's outcome is a function of the readable part of the state. -/
theorem faultOutputAndStartedAreNotRead : Obligations.FaultOutputAndStartedAreNotRead := by
  intro s s' h
  have hstep : readPart (step s) = readPart (step s') := stepWith_readPart h defaultOpc
  constructor
  · intro r hr
    exact readPart_eq_refused.mp (hstep ▸ readPart_eq_refused.mpr hr)
  · intro t ht
    exact readPart_eq_next.mp (hstep ▸ readPart_eq_next.mpr ⟨t, ht, rfl⟩)

end Sys2Proof.Machine
end

section
/-! Memory (20_memory.md): what a cell reads after MemWrite, that a canonical memory is fixed by the bytes its 256 cells read,
and what PUSH and CALL store, with every other cell and every other instruction in the frame. -/

namespace Sys2Proof.Machine

/-! ### MemWrite (20_memory.md R33) -/

/-- The written cell reads the value modulo 256, every other cell as before. -/
@[simp] theorem State.memWrite_memRead (s : State) (a b : Byte) (v : Nat) :
    (s.memWrite a v).memRead b = if b = a then BitVec.ofNat 8 v else s.memRead b := by
  simp only [State.memRead, State.memWrite_mem, Memory.read_write, mask8_natCast, BitVec.toNat_inj]

theorem State.memWrite_sameExcept (s : State) (a : Byte) (v : Nat) : SameExcept [.mem] s (s.memWrite a v) := by
  simp [SameExcept]

/-- Settles O7, from the read-after-write law and the frame of MemWrite. -/
theorem memWriteChangesOneCell : Obligations.MemWriteChangesOneCell := by
  intro s addr v
  refine ⟨?_, fun b hb => ?_, s.memWrite_sameExcept addr v⟩
  · rw [State.memWrite_memRead, if_pos rfl]
  · rw [State.memWrite_memRead, if_neg hb]

/-! ### Canonical memories are their cells (20_memory.md R30) -/

@[simp] theorem Memory.read_head (c : Host.Cell) (m : Memory) : Memory.read (c :: m) c.1 = c.2 :=
  if_pos rfl

/-- A canonical memory reads 0 below its first entry. -/
theorem Memory.read_lt_head {c : Host.Cell} {m : Memory} {a : Nat} (hm : Memory.above m c.1) (ha : a < c.1) :
    Memory.read (c :: m) a = 0 := by
  rw [Memory.read_cons, if_neg (by omega), Memory.read_above hm (by omega)]

/-- Two memories that read alike at the first entry of one of them, which is not 0: the other starts no later. -/
theorem Memory.head_le_of_read_eq {c d : Host.Cell} {m m' : Memory} (hc : c.2 ≠ 0) (hm' : Memory.above m' d.1)
    (h : Memory.read (c :: m) c.1 = Memory.read (d :: m') c.1) : d.1 ≤ c.1 := by
  by_contra hlt
  rw [Memory.read_head, Memory.read_lt_head hm' (by omega)] at h
  exact hc h

/-- Memories whose first entries have the same address read alike after them too: no later entry has that address. -/
theorem Memory.read_tail_eq {c d : Host.Cell} {m m' : Memory} (hcd : c.1 = d.1) (hm : Memory.above m c.1)
    (hm' : Memory.above m' d.1) {a : Nat} (h : Memory.read (c :: m) a = Memory.read (d :: m') a) : m.read a = m'.read a := by
  by_cases ha : c.1 = a
  · rw [Memory.read_above hm (by omega), Memory.read_above hm' (by omega)]
  · rwa [Memory.read_cons, Memory.read_cons, if_neg ha, if_neg (by omega)] at h

/-- A canonical memory whose 256 cells read 0 lists nothing. -/
theorem Memory.eq_nil_of_read_eq_zero {m : Memory} (hwf : m.wf = true) (h : ∀ a, a < 256 → m.read a = 0) : m = [] := by
  cases m with
  | nil => rfl
  | cons c m =>
    obtain ⟨hc, hc0, -, -⟩ := (Memory.wf_cons c m).mp hwf
    exact absurd (h c.1 hc) (by rwa [Memory.read_head])

/-- Extensionality of canonical memories: reading alike at the 256 addresses, they start with the same entry, and so on. -/
theorem Memory.ext_read {m m' : Memory} (hwf : m.wf = true) (hwf' : m'.wf = true)
    (h : ∀ a, a < 256 → m.read a = m'.read a) : m = m' := by
  induction m generalizing m' with
  | nil => exact (Memory.eq_nil_of_read_eq_zero hwf' fun a ha => (h a ha).symm).symm
  | cons c m ih =>
    cases m' with
    | nil => exact Memory.eq_nil_of_read_eq_zero hwf h
    | cons d m' =>
      obtain ⟨hc, hc0, hm, hwfm⟩ := (Memory.wf_cons c m).mp hwf
      obtain ⟨hd, hd0, hm', hwfm'⟩ := (Memory.wf_cons d m').mp hwf'
      have haddr : c.1 = d.1 := Nat.le_antisymm
        (Memory.head_le_of_read_eq hd0 hm (h d.1 hd).symm) (Memory.head_le_of_read_eq hc0 hm' (h c.1 hc))
      have hbyte : c.2 = d.2 := by
        rw [← Memory.read_head c m, h c.1 hc, haddr, Memory.read_head]
      have htail : m = m' := ih hwfm hwfm' fun a ha => Memory.read_tail_eq haddr hm hm' (h a ha)
      rw [Prod.ext haddr hbyte, htail]

/-- Settles O9, by induction along the two lists of entries. -/
theorem canonicalMemoryIsFixedByItsCells : Obligations.CanonicalMemoryIsFixedByItsCells :=
  fun _ _ => Memory.ext_read

/-- Writing to a cell the byte it holds leaves a canonical memory as it was, down to its list of entries. -/
theorem Memory.write_read_self {m : Memory} {a : Nat} (ha : a < 256) (hwf : m.wf = true) : m.write a (m.read a) = m := by
  refine Memory.ext_read (Memory.wf_write _ ha hwf) hwf fun b _ => ?_
  rw [Memory.read_write]
  split
  · next hb => rw [hb]
  · rfl

/-- Settles O8: the memory after the write reads as before and is canonical, so it is the same memory. -/
theorem writingThePresentByteChangesNothing : Obligations.WritingThePresentByteChangesNothing := by
  intro s addr hwf
  have hmem : s.mem.write addr.toNat (s.memRead addr) = s.mem := Memory.write_read_self addr.isLt hwf
  rw [State.memWrite, mask8_toNat, hmem]

/-! ### What instructions store (20_memory.md R34, R43) -/

/-- After a push the cell below the old `sp` reads the pushed value modulo 256, every other cell as before. -/
theorem pushed_memRead (v : Nat) (s : State) (a : Byte) :
    (pushed v s).memRead a = if a = s.sp - 1 then BitVec.ofNat 8 v else s.memRead a :=
  State.memWrite_memRead _ _ _ _

theorem mem_mem_writes {m : Mnemonic} : .mem ∈ writes m ↔ m ∈ pushers := by
  cases m <;> decide

section
variable {i : Instr} {s t : State}

theorem exec_mem_of_not_pusher (h : exec i s = .next t) (hi : i.mnemonic ∉ pushers) : t.mem = s.mem := by
  obtain ⟨-, -, -, -, -, -, -, -, hmem⟩ := exec_sameExcept h
  exact hmem (mt mem_mem_writes.mp hi)

theorem exec_push_sp (h : exec .push s = .next t) : t.sp = s.sp - 1 := by
  obtain ⟨-, -, rfl⟩ := execPush_eq_next.mp h
  rfl

theorem exec_call_sp (h : exec .call s = .next t) : t.sp = s.sp - 1 := by
  obtain ⟨-, rfl⟩ := execCall_eq_next.mp h
  rfl

/-- PUSH stores the selected register at `sp - 1` (43_stack_and_subroutine.md R101). -/
theorem exec_push_memRead (h : exec .push s = .next t) (a : Byte) :
    t.memRead a = if a = s.sp - 1 then s.x s.sel else s.memRead a := by
  obtain ⟨-, -, rfl⟩ := execPush_eq_next.mp h
  exact (pushed_memRead _ s a).trans (by rw [BitVec.ofNat_toNat, BitVec.setWidth_eq, State.selected])

/-- CALL stores the return address modulo 256 at `sp - 1` (43_stack_and_subroutine.md R103). -/
theorem exec_call_memRead (h : exec .call s = .next t) (a : Byte) :
    t.memRead a = if a = s.sp - 1 then BitVec.ofNat 8 (s.pc.toNat + 1) else s.memRead a := by
  obtain ⟨-, rfl⟩ := execCall_eq_next.mp h
  exact pushed_memRead _ s a

theorem exec_memRead_of_pusher (h : exec i s = .next t) (hi : i.mnemonic ∈ pushers) {a : Byte} (ha : a ≠ s.sp - 1) :
    t.memRead a = s.memRead a := by
  cases i with
  | push => rw [exec_push_memRead h, if_neg ha]
  | call => rw [exec_call_memRead h, if_neg ha]
  | _ => simp [Instr.mnemonic, pushers] at hi

/-- With `pc` where the stack now ends, the byte PUSH stored is the opcode byte. -/
theorem exec_push_opcodeByte (h : exec .push s = .next t) (hpc : t.pc = t.sp) : t.opcodeByte = s.x s.sel := by
  rw [State.opcodeByte, hpc, exec_push_sp h, exec_push_memRead h, if_pos rfl]

/-- With `pc` where the stack now ends, the return address CALL stored is the opcode byte. -/
theorem exec_call_opcodeByte (h : exec .call s = .next t) (hpc : t.pc = t.sp) :
    t.opcodeByte = BitVec.ofNat 8 (s.pc.toNat + 1) := by
  rw [State.opcodeByte, hpc, exec_call_sp h, exec_call_memRead h, if_pos rfl]

end

/-- Settles O44: the stored byte is the opcode byte at the new `pc`, and what it decodes to follows. -/
theorem storedByteIsFetchedNext : Obligations.StoredByteIsFetchedNext := by
  intro s t hpc
  constructor
  · intro h
    have hop := exec_push_opcodeByte h hpc
    exact ⟨hop, congrArg decodeOpcode hop⟩
  · intro h
    have hop := exec_call_opcodeByte h hpc
    exact ⟨hop, congrArg decodeOpcode hop⟩

/-- Settles O48: PUSH and CALL store one byte, and memory is in the frame of every other instruction. -/
theorem onlyPushAndCallStore : Obligations.OnlyPushAndCallStore :=
  fun _ _ _ h => ⟨fun hi _ ha => exec_memRead_of_pusher h hi ha,
    fun hi a => congrArg (·.read a.toNat) (exec_mem_of_not_pusher h hi)⟩

end Sys2Proof.Machine
end

section
/-! The encoding (30_encoding.md): `Decode` as the partial inverse of the opcode map, the decoder and the encoder as inverses of
each other, the count of unknown opcodes, and what the engine makes of the bytes at `pc`: the instruction it fetches, and when
an index operand is refused. -/

namespace Sys2Proof

/-! ### `Decode` (30_encoding.md R54, R57) -/

theorem Mnemonic.mem_all (m : Mnemonic) : m ∈ Mnemonic.all := by
  cases m <;> decide

theorem Mnemonic.nodup_all : Mnemonic.all.Nodup := by decide

section
variable {opc : Mnemonic → Byte}

/-- Under any map, a byte that decodes is the opcode of what it decodes to. -/
theorem eq_opc_of_decodeOpcodeWith {b : Byte} {m : Mnemonic} (h : decodeOpcodeWith opc b = some m) : b = opc m :=
  (beq_iff_eq.mp (List.find?_some (p := fun m => opc m == b) h)).symm

theorem decodeOpcodeWith_eq_none {b : Byte} : decodeOpcodeWith opc b = none ↔ ∀ m, b ≠ opc m := by
  simp [decodeOpcodeWith, List.find?_eq_none, Mnemonic.mem_all, eq_comm (a := b)]

/-- Under an injective map, each opcode decodes to its own mnemonic. -/
theorem decodeOpcodeWith_opc (hinj : Function.Injective opc) (m : Mnemonic) : decodeOpcodeWith opc (opc m) = some m := by
  cases hd : decodeOpcodeWith opc (opc m) with
  | none => exact absurd rfl (decodeOpcodeWith_eq_none.mp hd m)
  | some m' => rw [hinj (eq_opc_of_decodeOpcodeWith hd)]

theorem decodeOpcodeWith_eq_some (hinj : Function.Injective opc) {b : Byte} {m : Mnemonic} :
    decodeOpcodeWith opc b = some m ↔ b = opc m :=
  ⟨eq_opc_of_decodeOpcodeWith, fun h => h ▸ decodeOpcodeWith_opc hinj m⟩

theorem decodeOpcodeWith_isSome (hinj : Function.Injective opc) {b : Byte} :
    (decodeOpcodeWith opc b).isSome ↔ ∃ m, b = opc m := by
  simp [Option.isSome_iff_exists, decodeOpcodeWith_eq_some hinj]

end

/-- Settles O1: a look-up in a list that holds every mnemonic once. -/
theorem decodeInvertsOpc : Obligations.DecodeInvertsOpc :=
  ⟨⟨rfl, Mnemonic.nodup_all, Mnemonic.mem_all⟩,
    fun _ hinj _ => ⟨fun _ => decodeOpcodeWith_eq_some hinj, decodeOpcodeWith_eq_none⟩⟩

/-! ### The decoder and the encoder (30_encoding.md R50, R51, R58) -/

theorem takeOperands_operands_append (i : Instr) (rest : List Byte) :
    takeOperands i.mnemonic (i.operands ++ rest) = some (i, rest) := by
  cases i <;> rfl

/-- Taking operands succeeds exactly on the operand bytes of an instruction of that mnemonic, with any bytes after them. -/
theorem takeOperands_eq_some {m : Mnemonic} {bs rest : List Byte} {i : Instr} :
    takeOperands m bs = some (i, rest) ↔ m = i.mnemonic ∧ bs = i.operands ++ rest := by
  constructor
  · intro h
    unfold takeOperands at h
    split at h <;> cases h <;> exact ⟨rfl, rfl⟩
  · rintro ⟨rfl, rfl⟩
    exact takeOperands_operands_append i rest

/-- An instruction is fixed by its mnemonic and its operand bytes: no bit of an operand is dropped (30_encoding.md R58). -/
theorem Instr.eq_of_operands {i j : Instr} (hm : i.mnemonic = j.mnemonic) (ho : i.operands = j.operands) : i = j := by
  have hi := takeOperands_operands_append i []
  rw [hm, ho, takeOperands_operands_append j []] at hi
  cases hi
  rfl

/-- What the decoder accepts: a byte that decodes to the mnemonic, then the operands, then the bytes it hands back. -/
theorem decodeWith_eq_ok {opc : Mnemonic → Byte} {bytes rest : List Byte} {i : Instr} :
    decodeWith opc bytes = .ok (i, rest) ↔
      ∃ b, decodeOpcodeWith opc b = some i.mnemonic ∧ bytes = b :: (i.operands ++ rest) := by
  constructor
  · intro h
    cases bytes with
    | nil => cases h
    | cons b bs =>
      unfold decodeWith at h
      cases hd : decodeOpcodeWith opc b with
      | none => simp [hd] at h
      | some m =>
        cases ht : takeOperands m bs with
        | none => simp [hd, ht] at h
        | some r =>
          obtain rfl : r = (i, rest) := by simpa [hd, ht] using h
          obtain ⟨rfl, rfl⟩ := takeOperands_eq_some.mp ht
          exact ⟨b, hd, rfl⟩
  · rintro ⟨b, hd, rfl⟩
    simp [decodeWith, hd, takeOperands_operands_append]

/-- Settles O3: the opcode decodes to its mnemonic, so the decoder accepts the encoding. -/
theorem decodeOfEncodeGivesItBack : Obligations.DecodeOfEncodeGivesItBack :=
  fun opc hinj i _ => decodeWith_eq_ok.mpr ⟨opc i.mnemonic, decodeOpcodeWith_opc hinj i.mnemonic, rfl⟩

/-- Settles O4: what the decoder accepts starts with a byte that decodes, which is the opcode. -/
theorem decodedBytesAreItsEncoding : Obligations.DecodedBytesAreItsEncoding := by
  intro opc bytes i rest h
  obtain ⟨b, hb, rfl⟩ := decodeWith_eq_ok.mp h
  rw [eq_opc_of_decodeOpcodeWith hb]
  rfl

/-! ### The default map (30_encoding.md R56) -/

theorem decodeOpcode_defaultOpc (m : Mnemonic) : decodeOpcode (defaultOpc m) = some m := by
  cases m <;> rfl

theorem decode_encode (i : Instr) : decode (encode i) = .ok (i, []) :=
  decodeWith_eq_ok.mpr ⟨defaultOpc i.mnemonic, decodeOpcode_defaultOpc i.mnemonic, by simp [encode, encodeWith]⟩

/-- Settles O5: each word is the encoding of its instruction under the default map. -/
theorem defaultMapWordsDecode : Obligations.DefaultMapWordsDecode :=
  ⟨decode_encode .halt, decode_encode .init, decode_encode (.set 7), decode_encode (.save 255), decode_encode (.mul 0 1),
    decode_encode .prn, decode_encode .pra, decode_encode (.add 2 3), decode_encode (.sub 4 5), decode_encode (.div 6 7),
    decode_encode .inc, decode_encode .dec, decode_encode .push, decode_encode .pop, decode_encode .call, decode_encode .ret⟩

/-! ### The count of unknown opcodes (30_encoding.md R57) -/

section
variable {opc : Mnemonic → Byte}

theorem nodup_opcodeValues (hinj : Function.Injective opc) : (Mnemonic.all.map fun m => (opc m).toNat).Nodup :=
  Mnemonic.nodup_all.map fun _ _ h => hinj (BitVec.eq_of_toNat_eq h)

/-- Among the 256 byte values, those that decode are the values of the opcodes. -/
theorem mem_known_iff_mem_opcodeValues (hinj : Function.Injective opc) (n : Nat) :
    n ∈ (List.range 256).filter (fun n => (decodeOpcodeWith opc (BitVec.ofNat 8 n)).isSome) ↔
      n ∈ Mnemonic.all.map fun m => (opc m).toNat := by
  simp only [List.mem_filter, List.mem_range, decodeOpcodeWith_isSome hinj, List.mem_map, Mnemonic.mem_all, true_and]
  constructor
  · rintro ⟨hn, m, hm⟩
    exact ⟨m, by rw [← hm, BitVec.toNat_ofNat, Nat.mod_eq_of_lt hn]⟩
  · rintro ⟨m, rfl⟩
    exact ⟨(opc m).isLt, m, by simp⟩

/-- Sixteen byte values decode: the opcodes, which are distinct. -/
theorem length_known (hinj : Function.Injective opc) :
    ((List.range 256).filter fun n => (decodeOpcodeWith opc (BitVec.ofNat 8 n)).isSome).length = 16 := by
  have hperm := (List.perm_ext_iff_of_nodup (List.nodup_range.filter _) (nodup_opcodeValues hinj)).mpr
    (mem_known_iff_mem_opcodeValues hinj)
  rw [hperm.length_eq, List.length_map]
  rfl

end

/-- Settles O6: the 256 values without the 16 that decode. -/
theorem unknownOpcodesNumber240 : Obligations.UnknownOpcodesNumber240 := by
  intro opc hinj
  have hsplit := List.length_eq_length_filter_add (l := List.range 256)
    fun n => (decodeOpcodeWith opc (BitVec.ofNat 8 n)).isSome
  simp only [length_known hinj, List.length_range, Option.not_isSome] at hsplit
  omega

end Sys2Proof

namespace Sys2Proof.Machine

/-! ### The bytes at `pc` (30_encoding.md R51) -/

/-- The three cases of where `pc` stands exclude each other, so each fixes the operand bytes. -/
theorem State.operandBytes_by_pc (s : State) :
    (s.pc.toNat ≤ 253 → s.operandBytes = [s.codeByte 1, s.codeByte 2]) ∧
    (s.pc.toNat = 254 → s.operandBytes = [s.codeByte 1]) ∧ (s.pc.toNat = 255 → s.operandBytes = []) := by
  rcases s.operandBytes_cases with ⟨hpc, hb⟩ | ⟨hpc, hb⟩ | ⟨hpc, hb⟩
  · exact ⟨fun _ => hb, fun _ => by omega, fun _ => by omega⟩
  · exact ⟨fun _ => by omega, fun _ => hb, fun _ => by omega⟩
  · exact ⟨fun _ => by omega, fun _ => by omega, fun _ => hb⟩

/-- Settles O2: the encoder writes the opcode and the operands, and the engine reads them in the same order. -/
theorem formatsListOpcodeThenOperands : Obligations.FormatsListOpcodeThenOperands := by
  constructor
  · intro opc a b
    and_intros <;> rfl
  · exact fun s => ⟨rfl, s.operandBytes_by_pc⟩

/-! ### Zeroed memory as code (30_encoding.md R59) -/

/-- A byte that is the opcode of nothing makes a running engine take the unknown-opcode fault (60_exceptions.md R121). -/
theorem stepWith_of_unknown {opc : Mnemonic → Byte} {s : State} (hr : s.run = .running)
    (hd : decodeOpcodeWith opc s.opcodeByte = none) :
    stepWith opc s = .next (s.start.takeFault (.unknownOpcode s.pc s.opcodeByte)) := by
  simp [stepWith, hr, hd]

/-- Settles O11: the reset state's opcode byte is 0, which is HALT under the default map. -/
theorem zeroedMemoryHaltsOrFaults : Obligations.ZeroedMemoryHaltsOrFaults := by
  constructor
  · exact ⟨State.reset.start.halt, rfl, rfl, by simp [SameExcept]⟩
  · intro opc hopc
    have hd : decodeOpcodeWith opc State.reset.opcodeByte = none := decodeOpcodeWith_eq_none.mpr fun m => (hopc m).symm
    exact ⟨_, stepWith_of_unknown rfl hd, rfl⟩

/-! ### The instruction a running engine fetches (40_engine.md R67, R70) -/

/-- The bytes at `pc` are those of an instruction that lies in memory to its last operand. -/
def State.Fetches (s : State) (i : Instr) : Prop :=
  s.mnemonicAtPc = some i.mnemonic ∧ s.pc.toNat + i.mnemonic.operandCount ≤ 255 ∧
    i.operands = [s.codeByte 1, s.codeByte 2].take i.mnemonic.operandCount

/-- Where the operands of the mnemonic at `pc` lie in memory, an instruction is fetched. -/
theorem State.exists_fetches {s : State} {m : Mnemonic} (hm : s.mnemonicAtPc = some m)
    (hp : s.pc.toNat + m.operandCount ≤ 255) : ∃ i, i.mnemonic = m ∧ s.Fetches i := by
  rcases takeOperands_operandBytes m s with ⟨hlt, -⟩ | ⟨-, i, rest, -, rfl, ho⟩
  · omega
  · exact ⟨i, rfl, hm, hp, ho⟩

theorem State.Fetches.unique {s : State} {i j : Instr} (hi : s.Fetches i) (hj : s.Fetches j) : i = j := by
  obtain ⟨hmi, -, hoi⟩ := hi
  obtain ⟨hmj, -, hoj⟩ := hj
  have hm : i.mnemonic = j.mnemonic := Option.some.inj (hmi.symm.trans hmj)
  exact Instr.eq_of_operands hm (by rw [hoi, hoj, hm])

/-- The step of a running engine, by what it fetches: nothing known, operands that do not lie in memory, or an instruction. -/
theorem step_fetch_cases {s : State} (hr : s.run = .running) :
    (s.mnemonicAtPc = none ∧ step s = .next (s.start.takeFault (.unknownOpcode s.pc s.opcodeByte))) ∨
    (∃ m, s.mnemonicAtPc = some m ∧ 255 < s.pc.toNat + m.operandCount ∧ step s = .refused .uOperandFetch) ∨
    (∃ i, s.Fetches i ∧ step s = exec i s.start) := by
  rcases step_running_cases hr with h | h | ⟨i, hm, hp, ho, hs⟩
  · exact Or.inl h
  · exact Or.inr (Or.inl h)
  · exact Or.inr (Or.inr ⟨i, ⟨hm, hp, ho⟩, hs⟩)

/-- A running engine executes the instruction it fetches. -/
theorem State.Fetches.step_eq {s : State} {i : Instr} (hf : s.Fetches i) (hr : s.run = .running) :
    step s = exec i s.start := by
  have ⟨hm, hp, _⟩ := hf
  rcases step_fetch_cases hr with ⟨hm', -⟩ | ⟨m, hm', hp', -⟩ | ⟨j, hj, hs⟩
  · rw [hm] at hm'
    cases hm'
  · rw [hm] at hm'
    cases hm'
    omega
  · rw [hf.unique hj, hs]

/-- A step is refused for a reason other than the operand fetch exactly when a running engine fetches an instruction whose
meaning is refused for it. -/
theorem step_eq_refused_of_ne {s : State} {r : Refusal} (hne : r ≠ .uOperandFetch) :
    step s = .refused r ↔ s.run = .running ∧ ∃ i, s.Fetches i ∧ exec i s.start = .refused r := by
  constructor
  · intro h
    cases hr : s.run with
    | halted =>
      rw [step_of_halted hr] at h
      cases h
    | running =>
      refine ⟨rfl, ?_⟩
      rcases step_fetch_cases hr with ⟨-, hs⟩ | ⟨m, -, -, hs⟩ | ⟨i, hf, hs⟩
      · rw [hs] at h
        cases h
      · rw [hs] at h
        cases h
        exact absurd rfl hne
      · exact ⟨i, hf, hs ▸ h⟩
  · rintro ⟨hr, i, hf, he⟩
    rw [hf.step_eq hr, he]

/-! ### The reasons for which each instruction is refused (40_engine.md R68) -/

/-- The reasons for which the meaning of an instruction can be refused, in the order of the checks (40_engine.md R70). -/
def refusals (m : Mnemonic) : List Refusal :=
  match m with
  | .halt => []
  | .init => [.uPcAdvance]
  | .set => [.uOperandFetch, .uSelRange, .uPcAdvance]
  | .save => [.uOperandFetch, .uPcAdvance]
  | .mul => [.uOperandFetch, .uRegIndex, .uPcAdvance]
  | .prn => [.uPcAdvance]
  | .pra => [.uPcAdvance]
  | .add => [.uOperandFetch, .uRegIndex, .uPcAdvance]
  | .sub => [.uOperandFetch, .uRegIndex, .uPcAdvance]
  | .div => [.uOperandFetch, .uRegIndex, .uPcAdvance]
  | .inc => [.uPcAdvance]
  | .dec => [.uPcAdvance]
  | .push => [.uSpLow, .uPcAdvance]
  | .pop => [.uSpHigh, .uPcAdvance]
  | .call => [.uSpLow]
  | .ret => [.uSpHigh]

theorem uSelRange_mem_refusals {m : Mnemonic} : .uSelRange ∈ refusals m ↔ m = .set := by
  cases m <;> decide

theorem uRegIndex_mem_refusals {m : Mnemonic} : .uRegIndex ∈ refusals m ↔ m ∈ pairForms := by
  cases m <;> decide

section
variable {s : State} {r : Refusal}

theorem advance_refused_reason {w : Nat} (h : advance w s = .refused r) : r ∈ [Refusal.uPcAdvance] := by
  obtain ⟨-, rfl⟩ := advance_eq_refused.mp h
  decide

theorem binary_refused_reason {op : Byte → Byte → Byte} {a b : Byte} (h : binary op a b s = .refused r) :
    r ∈ [Refusal.uOperandFetch, .uRegIndex, .uPcAdvance] := by
  rcases binary_eq_refused.mp h with ⟨-, rfl⟩ | ⟨-, -, rfl⟩ | ⟨-, _, _, -, -, -, rfl⟩ <;> decide

/-- The meaning of an instruction is refused for a reason listed for it, and for no other. -/
theorem exec_refused_reason {i : Instr} (h : exec i s = .refused r) : r ∈ refusals i.mnemonic := by
  cases i with
  | halt => exact absurd h execHalt_ne_refused
  | init => exact advance_refused_reason h
  | set n => rcases execSet_eq_refused.mp h with ⟨-, rfl⟩ | ⟨-, -, rfl⟩ | ⟨-, -, -, rfl⟩ <;> simp [refusals, Instr.mnemonic]
  | save n => rcases execSave_eq_refused.mp h with ⟨-, rfl⟩ | ⟨-, -, rfl⟩ <;> simp [refusals, Instr.mnemonic]
  | mul a b => exact binary_refused_reason h
  | add a b => exact binary_refused_reason h
  | sub a b => exact binary_refused_reason h
  | div a b =>
    rcases execDiv_eq_refused.mp h with ⟨-, rfl⟩ | ⟨-, -, rfl⟩ | ⟨-, _, _, -, -, -, -, rfl⟩ <;>
      simp [refusals, Instr.mnemonic]
  | inc => exact advance_refused_reason h
  | dec => exact advance_refused_reason h
  | prn => exact advance_refused_reason h
  | pra => exact advance_refused_reason h
  | push => rcases execPush_eq_refused.mp h with ⟨-, rfl⟩ | ⟨-, -, rfl⟩ <;> decide
  | pop => rcases execPop_eq_refused.mp h with ⟨-, rfl⟩ | ⟨-, -, rfl⟩ <;> decide
  | call => obtain ⟨-, rfl⟩ := execCall_eq_refused.mp h; decide
  | ret => obtain ⟨-, rfl⟩ := execRet_eq_refused.mp h; decide

end

/-! ### Illegal index operands (30_encoding.md R53) -/

section
variable {s : State} {a b : Byte}

theorem execSet_eq_refused_uSelRange :
    execSet a s = .refused .uSelRange ↔ s.pc.toNat + 1 ≤ 255 ∧ 7 < a.toNat := by
  simp [execSet_eq_refused, toIndex_eq_none]

theorem binary_eq_refused_uRegIndex {op : Byte → Byte → Byte} :
    binary op a b s = .refused .uRegIndex ↔ s.pc.toNat + 2 ≤ 255 ∧ (7 < a.toNat ∨ 7 < b.toNat) := by
  simp [binary_eq_refused, toIndex_eq_none]

theorem execDiv_eq_refused_uRegIndex :
    execDiv a b s = .refused .uRegIndex ↔ s.pc.toNat + 2 ≤ 255 ∧ (7 < a.toNat ∨ 7 < b.toNat) := by
  simp [execDiv_eq_refused, toIndex_eq_none]

/-- The four instructions with two register operands refuse an illegal index alike. -/
theorem exec_eq_refused_uRegIndex {i : Instr} (hi : i.mnemonic ∈ pairForms) (ho : i.operands = [a, b]) :
    exec i s = .refused .uRegIndex ↔ s.pc.toNat + 2 ≤ 255 ∧ (7 < a.toNat ∨ 7 < b.toNat) := by
  cases i with
  | mul => cases ho; exact binary_eq_refused_uRegIndex
  | add => cases ho; exact binary_eq_refused_uRegIndex
  | sub => cases ho; exact binary_eq_refused_uRegIndex
  | div => cases ho; exact execDiv_eq_refused_uRegIndex
  | _ => simp [Instr.mnemonic, pairForms] at hi

end

section
variable {s : State}

theorem State.fetches_set {n : Byte} :
    s.Fetches (.set n) ↔ s.mnemonicAtPc = some .set ∧ s.pc.toNat + 1 ≤ 255 ∧ n = s.codeByte 1 := by
  simp [State.Fetches, Instr.mnemonic, Instr.operands, Mnemonic.operandCount]

theorem operandCount_of_mem_pairForms {m : Mnemonic} (hm : m ∈ pairForms) : m.operandCount = 2 := by
  revert hm
  cases m <;> decide

/-- The operands of a fetched MUL, ADD, SUB or DIV are the two bytes after its opcode. -/
theorem State.Fetches.pair_operands {i : Instr} (hf : s.Fetches i) (hi : i.mnemonic ∈ pairForms) :
    i.operands = [s.codeByte 1, s.codeByte 2] := by
  obtain ⟨-, -, ho⟩ := hf
  rw [ho, operandCount_of_mem_pairForms hi]
  rfl

theorem step_eq_refused_uSelRange :
    step s = .refused .uSelRange ↔
      s.run = .running ∧ s.mnemonicAtPc = some .set ∧ s.pc.toNat + 1 ≤ 255 ∧ 7 < (s.codeByte 1).toNat := by
  rw [step_eq_refused_of_ne (by decide)]
  refine and_congr_right fun _ => ⟨?_, ?_⟩
  · rintro ⟨i, hf, he⟩
    have hset : i.mnemonic = .set := uSelRange_mem_refusals.mp (exec_refused_reason he)
    cases i with
    | set n =>
      obtain ⟨hm, hp, rfl⟩ := State.fetches_set.mp hf
      obtain ⟨-, hn⟩ := execSet_eq_refused_uSelRange.mp he
      exact ⟨hm, hp, hn⟩
    | _ => cases hset
  · rintro ⟨hm, hp, hn⟩
    exact ⟨.set (s.codeByte 1), State.fetches_set.mpr ⟨hm, hp, rfl⟩, execSet_eq_refused_uSelRange.mpr ⟨hp, hn⟩⟩

theorem step_eq_refused_uRegIndex :
    step s = .refused .uRegIndex ↔
      s.run = .running ∧ ∃ m, s.mnemonicAtPc = some m ∧ m ∈ pairForms ∧ s.pc.toNat + 2 ≤ 255 ∧
        (7 < (s.codeByte 1).toNat ∨ 7 < (s.codeByte 2).toNat) := by
  rw [step_eq_refused_of_ne (by decide)]
  refine and_congr_right fun _ => ⟨?_, ?_⟩
  · rintro ⟨i, hf, he⟩
    have hi : i.mnemonic ∈ pairForms := uRegIndex_mem_refusals.mp (exec_refused_reason he)
    have ⟨hm, _, _⟩ := hf
    exact ⟨i.mnemonic, hm, hi, (exec_eq_refused_uRegIndex (s := s.start) hi (hf.pair_operands hi)).mp he⟩
  · rintro ⟨m, hm, hi, hp, hn⟩
    obtain ⟨i, rfl, hf⟩ := State.exists_fetches hm (by rwa [operandCount_of_mem_pairForms hi])
    exact ⟨i, hf, (exec_eq_refused_uRegIndex hi (hf.pair_operands hi)).mpr ⟨hp, hn⟩⟩

end

/-- Settles O24: only SET and the four pair forms list the two reasons, and each refuses exactly its illegal operands. -/
theorem illegalIndexRefusedExactly : Obligations.IllegalIndexRefusedExactly :=
  fun _ => ⟨step_eq_refused_uSelRange, step_eq_refused_uRegIndex⟩

end Sys2Proof.Machine
end

section
/-! The engine (40_engine.md): the invariant of every reachable state, the host's loads, the status of a step and the end of a
run, and the exact conditions under which a step is refused, from which the domain of `step` follows. -/

namespace Sys2Proof.Machine

/-! ### The invariant (40_engine.md R77) -/

/-- Everything a step with a next state did, under any opcode map, in the terms an invariant needs: the no-op of a halted
engine, a fault, or an instruction; each from the state with `started` set. -/
theorem stepWith_next_cases {opc : Mnemonic → Byte} {s t : State} (h : stepWith opc s = .next t) :
    t = s.start ∨ (∃ f, t = s.start.takeFault f) ∨ ∃ i, exec i s.start = .next t := by
  rcases stepWith_cases opc s with ⟨-, hs⟩ | ⟨-, -, hs⟩ | ⟨m, -, -, -, hs⟩ | ⟨m, i, rest, -, -, -, hs⟩ <;> rw [hs] at h
  · exact Or.inl (Host.Outcome.next.inj h).symm
  · exact Or.inr (Or.inl ⟨_, (Host.Outcome.next.inj h).symm⟩)
  · cases h
  · exact Or.inr (Or.inr ⟨i, h⟩)

theorem stepWith_started {opc : Mnemonic → Byte} {s t : State} (h : stepWith opc s = .next t) : t.started = true := by
  rcases stepWith_next_cases h with rfl | ⟨f, rfl⟩ | ⟨i, he⟩
  · rfl
  · rfl
  · exact exec_started he

section
variable {i : Instr} {s t : State}

theorem pushed_wf (v : Nat) (hwf : s.mem.wf = true) : (pushed v s).mem.wf = true :=
  Memory.wf_write (mask8 v) (s.sp - 1).isLt hwf

/-- Every instruction keeps memory canonical: the pushers by one write to a cell, the others by their frame. -/
theorem exec_mem_wf (h : exec i s = .next t) (hwf : s.mem.wf = true) : t.mem.wf = true := by
  cases i with
  | push => obtain ⟨-, -, rfl⟩ := execPush_eq_next.mp h; exact pushed_wf _ hwf
  | call => obtain ⟨-, rfl⟩ := execCall_eq_next.mp h; exact pushed_wf _ hwf
  | _ => rwa [exec_mem_of_not_pusher h (by simp [Instr.mnemonic, pushers])]

/-- No instruction latches a fault in a running engine: HALT and DIV by zero halt it, every other one leaves `run` and the
fault record as they were. -/
theorem exec_fault_halted (h : exec i s = .next t) (hs : s.fault ≠ none → s.run = .halted) :
    t.fault ≠ none → t.run = .halted := by
  cases i with
  | halt => obtain rfl := execHalt_eq_next.mp h; exact fun _ => rfl
  | div a b =>
    rcases execDiv_next_cases h with ⟨-, f, rfl⟩ | ⟨-, -, v, rfl⟩
    · exact fun _ => rfl
    · exact hs
  | _ => rwa [exec_fault_of_ne_div h (by simp [Instr.mnemonic]), exec_run_of_not_halting h (by simp [Instr.mnemonic])]

theorem exec_inv (h : exec i s = .next t) (hs : s.Inv) : t.Inv :=
  ⟨exec_mem_wf h hs.1, exec_fault_halted h hs.2⟩

end

theorem stepWith_inv {opc : Mnemonic → Byte} {s t : State} (h : stepWith opc s = .next t) (hs : s.Inv) : t.Inv := by
  have hstart : s.start.Inv := hs
  rcases stepWith_next_cases h with rfl | ⟨f, rfl⟩ | ⟨i, he⟩
  · exact hstart
  · exact ⟨hstart.1, fun _ => rfl⟩
  · exact exec_inv he hstart

/-- A step sets `started`, so after it only `State.Inv` is left to show. -/
theorem stepWith_engineInv {opc : Mnemonic → Byte} {s t : State} (h : stepWith opc s = .next t) (hs : s.Inv) :
    t.EngineInv :=
  ⟨stepWith_inv h hs, fun _ => stepWith_started h⟩

/-- Settles O58: each of the three things a step can do keeps `State.Inv`, and the step sets `started`. -/
theorem everyStepKeepsTheInvariant : Obligations.EveryStepKeepsTheInvariant :=
  ⟨fun _ _ ⟨hs, _⟩ h => stepWith_engineInv h hs, fun _ _ _ hs h => stepWith_engineInv h hs⟩

/-- Settles O57: nothing is latched, the engine runs, and the empty list of cells is canonical. -/
theorem resetMeetsTheInvariant : Obligations.ResetMeetsTheInvariant :=
  ⟨⟨Memory.wf_reset, fun h => absurd rfl h⟩, fun h => RunState.noConfusion h⟩

/-! ### Loads (40_engine.md R72) -/

/-- When a load is done, and what it does. -/
theorem load_eq_next {address : Int} {value : Nat} {s t : State} :
    load address value s = .next t ↔
      s.started = false ∧ 0 ≤ address ∧ address ≤ 255 ∧ t = s.memWrite (BitVec.ofNat 8 address.toNat) value := by
  unfold load
  split
  · next hs => simp [hs]
  · next hs =>
    split
    · next ha => simp [hs, ha, eq_comm (a := t)]
    · next ha => simp only [reduceCtorEq, false_iff]; exact fun h => ha ⟨h.2.1, h.2.2.1⟩

theorem load_engineInv {address : Int} {value : Nat} {s t : State} (h : load address value s = .next t)
    (hs : s.EngineInv) : t.EngineInv := by
  obtain ⟨-, -, -, rfl⟩ := load_eq_next.mp h
  obtain ⟨⟨hwf, hfault⟩, hstarted⟩ := hs
  exact ⟨⟨State.memWrite_wf _ value hwf, hfault⟩, hstarted⟩

/-- Settles O59, by induction on how the state is reached. -/
theorem reachableStatesMeetTheInvariant : Obligations.ReachableStatesMeetTheInvariant := by
  intro s hs
  induction hs with
  | reset => exact resetMeetsTheInvariant
  | resetAgain s _ _ => exact resetMeetsTheInvariant
  | load s t address value _ h ih => exact load_engineInv h ih
  | step s t _ h ih =>
    obtain ⟨hinv, -⟩ := ih
    exact stepWith_engineInv h hinv

theorem load_late {s : State} (hs : s.started = true) (address : Int) (value : Nat) :
    load address value s = .refused .uLoadLate := by
  simp [load, hs]

theorem load_bad_address {s : State} (hs : s.started = false) {address : Int} (ha : address < 0 ∨ 255 < address)
    (value : Nat) : load address value s = .refused .uLoadAddr := by
  have hrange : ¬ (0 ≤ address ∧ address ≤ 255) := by omega
  simp [load, hs, hrange]

/-- An address in range is the value of its byte. -/
theorem eq_ofNat_toNat_iff {address : Int} (h0 : 0 ≤ address) (h255 : address ≤ 255) (b : Byte) :
    b = BitVec.ofNat 8 address.toNat ↔ (b.toNat : Int) = address := by
  rw [← BitVec.toNat_inj, toNat_address (by omega)]
  omega

/-- Settles O12: a load is MemWrite, whose address is the cell named, and the two refusals are its two checks. -/
theorem loadWritesOneCellBeforeTheFirstStep : Obligations.LoadWritesOneCellBeforeTheFirstStep := by
  intro s address value
  refine ⟨fun hs h0 h255 => ?_, fun hs => load_late hs address value, fun hs ha => load_bad_address hs ha value⟩
  refine ⟨_, load_eq_next.mpr ⟨hs, h0, h255, rfl⟩, s.memWrite_sameExcept _ _, fun b => ?_⟩
  simp only [State.memWrite_memRead, eq_ofNat_toNat_iff h0 h255]

/-! ### Two loads -/

theorem Memory.write_comm {m : Memory} {a b : Nat} {v w : Byte} (ha : a < 256) (hb : b < 256) (hab : a ≠ b)
    (hwf : m.wf = true) : (m.write a v).write b w = (m.write b w).write a v := by
  refine Memory.ext_read (Memory.wf_write w hb (Memory.wf_write v ha hwf))
    (Memory.wf_write v ha (Memory.wf_write w hb hwf)) fun c _ => ?_
  simp only [Memory.read_write]
  split
  · next hc => rw [if_neg (by omega)]
  · rfl

theorem Memory.write_write_same {m : Memory} {a : Nat} {v w : Byte} (ha : a < 256) (hwf : m.wf = true) :
    (m.write a v).write a w = m.write a w := by
  refine Memory.ext_read (Memory.wf_write w ha (Memory.wf_write v ha hwf)) (Memory.wf_write w ha hwf) fun c _ => ?_
  simp only [Memory.read_write]
  split <;> rfl

theorem State.memWrite_comm {s : State} {a b : Byte} (v w : Nat) (hab : a ≠ b) (hwf : s.mem.wf = true) :
    (s.memWrite a v).memWrite b w = (s.memWrite b w).memWrite a v := by
  have hmem := Memory.write_comm (v := mask8 v) (w := mask8 w) a.isLt b.isLt (mt BitVec.eq_of_toNat_eq hab) hwf
  simp only [State.memWrite, hmem]

theorem State.memWrite_memWrite_same {s : State} (a : Byte) (v w : Nat) (hwf : s.mem.wf = true) :
    (s.memWrite a v).memWrite a w = s.memWrite a w := by
  have hmem := Memory.write_write_same (v := mask8 v) (w := mask8 w) a.isLt hwf
  simp only [State.memWrite, hmem]

/-- Settles O13: loads are writes, and writes to a canonical memory commute or overwrite. -/
theorem loadsCommuteAndTheLastWins : Obligations.LoadsCommuteAndTheLastWins := by
  intro s a b v w hwf hs ha0 ha255 hb0 hb255
  refine ⟨_, _, _, load_eq_next.mpr ⟨hs, ha0, ha255, rfl⟩, load_eq_next.mpr ⟨hs, hb0, hb255, rfl⟩,
    load_eq_next.mpr ⟨hs, hb0, hb255, rfl⟩, fun hab => ?_, fun hab => ?_⟩
  · have hne : BitVec.ofNat 8 a.toNat ≠ BitVec.ofNat 8 b.toNat := by
      rw [ne_eq, eq_ofNat_toNat_iff hb0 hb255, toNat_address (by omega)]
      omega
    exact load_eq_next.mpr ⟨hs, ha0, ha255, State.memWrite_comm v w hne hwf⟩
  · subst hab
    exact State.memWrite_memWrite_same _ v w hwf

/-! ### The loop of loads (40_engine.md R72) -/

/-- A load at an address that lies in memory. -/
theorem load_natCast {s : State} (hs : s.started = false) {a : Nat} (ha : a ≤ 255) (value : Nat) :
    load a value s = .next { s with mem := s.mem.write a (BitVec.ofNat 8 value) } := by
  refine load_eq_next.mpr ⟨hs, by omega, by omega, ?_⟩
  rw [State.memWrite, Int.toNat_natCast, toNat_address ha, mask8_natCast]

theorem loadBytes_cons {base : Int} {v : Nat} {rest : List Nat} {s t : State} (h : load base v s = .next t) :
    loadBytes base (v :: rest) s = loadBytes (base + 1) rest t := by
  simp [loadBytes, h]

theorem Memory.placeBytes_cons {m : Memory} {a : Nat} (ha : a ≤ 255) (b : Byte) (bs : List Byte) :
    m.placeBytes a (b :: bs) = (m.write a b).placeBytes (a + 1) bs :=
  if_pos ha

/-- The loop of loads places the masked bytes in memory, where they all lie in it. -/
theorem loadBytes_eq_placeBytes {s : State} {base : Nat} {values : List Nat} (hs : s.started = false)
    (hlen : base + values.length ≤ 256) :
    loadBytes base values s = .next { s with mem := s.mem.placeBytes base (values.map (BitVec.ofNat 8)) } := by
  induction values generalizing base s with
  | nil => rfl
  | cons v rest ih =>
    rw [List.length_cons] at hlen
    rw [loadBytes_cons (load_natCast hs (by omega) v), List.map_cons, Memory.placeBytes_cons (by omega)]
    exact ih (base := base + 1) hs (by omega)

/-- Bytes placed from `a` on leave the cells below `a` and after the last byte as they were. -/
theorem Memory.read_placeBytes_outside {m : Memory} {a : Nat} {bs : List Byte} {b : Nat}
    (hb : b < a ∨ a + bs.length ≤ b) : (m.placeBytes a bs).read b = m.read b := by
  induction bs generalizing m a with
  | nil => rfl
  | cons c bs ih =>
    rw [List.length_cons] at hb
    unfold Memory.placeBytes
    split
    · rw [ih (by omega), Memory.read_write, if_neg (by omega)]
    · rfl

/-- Bytes placed from `a` on, all of them in memory, stand there in order. -/
theorem Memory.read_placeBytes_inside {m : Memory} {a : Nat} {bs : List Byte} (hlen : a + bs.length ≤ 256) {k : Nat}
    (hk : k < bs.length) : (m.placeBytes a bs).read (a + k) = bs[k] := by
  induction bs generalizing m a k with
  | nil => cases hk
  | cons c bs ih =>
    rw [List.length_cons] at hlen hk
    rw [Memory.placeBytes_cons (by omega)]
    cases k with
    | zero => rw [Memory.read_placeBytes_outside (by omega), Memory.read_write, if_pos (Nat.add_zero a), List.getElem_cons_zero]
    | succ k => rw [show a + (k + 1) = a + 1 + k by omega, ih (by omega), List.getElem_cons_succ]

/-- Settles O14: the loop places the masked bytes, which stand in order and leave every other cell. -/
theorem loadedBytesStandInOrder : Obligations.LoadedBytesStandInOrder := by
  intro s base values hs hlen
  have hmap : (values.map (BitVec.ofNat 8)).length = values.length := List.length_map _
  refine ⟨_, loadBytes_eq_placeBytes hs hlen, by simp [SameExcept], fun k hk => ?_, fun a ha => ?_⟩
  · exact (Memory.read_placeBytes_inside (by omega) (by omega)).trans (List.getElem_map _)
  · exact Memory.read_placeBytes_outside (by omega)

/-! ### The status of a step (40_engine.md R66) -/

section
variable {s : State}

/-- The three combinations of `run` and the fault record, and the status each gives. -/
theorem State.status_cases (s : State) :
    (s.run = .running ∧ s.status = .continued) ∨
    (s.run = .halted ∧ s.fault = none ∧ s.status = .halted) ∨
    (∃ f, s.run = .halted ∧ s.fault = some f ∧ s.status = .faulted f) := by
  cases hr : s.run with
  | running => exact Or.inl ⟨rfl, s.status_of_running hr⟩
  | halted =>
    rw [s.status_of_halted hr]
    cases hf : s.fault with
    | none => exact Or.inr (Or.inl ⟨rfl, rfl, rfl⟩)
    | some f => exact Or.inr (Or.inr ⟨f, rfl, rfl, rfl⟩)

theorem State.status_eq_continued : s.status = .continued ↔ s.run = .running := by
  rcases s.status_cases with ⟨hr, hst⟩ | ⟨hr, -, hst⟩ | ⟨f, hr, -, hst⟩ <;> simp [hr, hst]

theorem State.status_eq_halted : s.status = .halted ↔ s.run = .halted ∧ s.fault = none := by
  rcases s.status_cases with ⟨hr, hst⟩ | ⟨hr, hf, hst⟩ | ⟨f, hr, hf, hst⟩ <;> simp [*]

theorem State.status_eq_faulted {f : FaultRecord} : s.status = .faulted f ↔ s.run = .halted ∧ s.fault = some f := by
  rcases s.status_cases with ⟨hr, hst⟩ | ⟨hr, hf, hst⟩ | ⟨f, hr, hf, hst⟩ <;> simp [*]

end

/-- Settles O15: one equation of the status per value. -/
theorem statusFollowsRunAndFault : Obligations.StatusFollowsRunAndFault :=
  fun _ => ⟨State.status_eq_continued, State.status_eq_halted, fun _ => State.status_eq_faulted⟩

/-! ### Halted engines (40_engine.md R71) -/

/-- Settles O18: the step sets `started`, and the status reads `run` and the fault, which it leaves. -/
theorem haltedStepIsANoOp : Obligations.HaltedStepIsANoOp :=
  fun s hr => ⟨s.start, step_of_halted hr, rfl, by simp [SameExcept], fun hf => State.status_eq_halted.mpr ⟨hr, hf⟩,
    fun _ hf => State.status_eq_faulted.mpr ⟨hr, hf⟩⟩

theorem State.start_of_started {s : State} (hs : s.started = true) : s.start = s := by
  rw [State.start, ← hs]

/-- A halted engine that has been stepped is a fixed point of `step`. -/
theorem step_of_halted_started {s : State} (hr : s.run = .halted) (hs : s.started = true) : step s = .next s := by
  rw [step_of_halted hr, State.start_of_started hs]

theorem core_run_succ {s t : State} (h : step s = .next t) (n : Nat) : core.run (n + 1) s = core.run n t := by
  have hcore : core.step s = .next t := h
  simp [Host.Core.run, hcore]

/-- Settles O19, by induction on the number of steps. -/
theorem haltedEngineNeverResumes : Obligations.HaltedEngineNeverResumes := by
  intro n s hr hs
  induction n with
  | zero => rfl
  | succ n ih => rw [core_run_succ (step_of_halted_started hr hs), ih]

/-! ### The end of a run (40_engine.md R73, R74) -/

/-- How the Driver ends a run within `n + 1` steps: the first step goes on and the run ends within `n`, or it halts there. -/
theorem drive_succ_eq_ended {n : Nat} {s t : State} {st : Status} :
    drive (n + 1) s = .ended t st ↔
      ∃ u, step s = .next u ∧
        ((u.run = .running ∧ drive n u = .ended t st) ∨ (u.run = .halted ∧ u = t ∧ u.status = st)) := by
  rw [drive]
  cases hs : step s with
  | refused r => simp
  | fault f => cases f
  | next u => rcases u.status_cases with ⟨hr, hst⟩ | ⟨hr, -, hst⟩ | ⟨f, hr, -, hst⟩ <;> simp [hr, hst]

/-- A run ends in a halted state that has been stepped, with the status of that state. -/
theorem drive_ended_halted {n : Nat} {s t : State} {st : Status} (h : drive n s = .ended t st) :
    t.run = .halted ∧ t.started = true ∧ t.status = st := by
  induction n generalizing s with
  | zero => cases h
  | succ n ih =>
    obtain ⟨u, hs, ⟨-, hu⟩ | ⟨hr, rfl, hst⟩⟩ := drive_succ_eq_ended.mp h
    · exact ih hu
    · exact ⟨hr, stepWith_started hs, hst⟩

/-- A larger budget does not change the end of a run. -/
theorem drive_ended_add {n : Nat} {s t : State} {st : Status} (h : drive n s = .ended t st) (k : Nat) :
    drive (n + k) s = .ended t st := by
  induction n generalizing s with
  | zero => cases h
  | succ n ih =>
    obtain ⟨u, hs, hu⟩ := drive_succ_eq_ended.mp h
    rw [Nat.add_right_comm]
    exact drive_succ_eq_ended.mpr ⟨u, hs, hu.imp_left fun ⟨hr, hn⟩ => ⟨hr, ih hn⟩⟩

/-- Settles O16: a run ends in a halted, stepped state, and larger budgets end in it too. -/
theorem endedRunStaysEnded : Obligations.EndedRunStaysEnded := by
  intro n s t st h
  obtain ⟨hr, hstarted, rfl⟩ := drive_ended_halted h
  refine ⟨fun hc => ?_, rfl, hr, step_of_halted_started hr hstarted, drive_ended_add h⟩
  rw [State.status_eq_continued, hr] at hc
  cases hc

/-! ### The step of the decoded instruction (40_engine.md R67) -/

theorem stepWith_of_decode {opc : Mnemonic → Byte} {s : State} {i : Instr} {rest : List Byte} (hr : s.run = .running)
    (h : decodeWith opc (s.opcodeByte :: s.operandBytes) = .ok (i, rest)) : stepWith opc s = exec i s.start := by
  obtain ⟨b, hd, hbytes⟩ := decodeWith_eq_ok.mp h
  obtain ⟨rfl, hoperands⟩ := List.cons.inj hbytes
  simp [stepWith, hr, hd, hoperands, takeOperands_operands_append]

/-- Settles O17: the decoder and the engine's fetch read the same opcode and the same operands. -/
theorem stepRunsTheDecodedInstruction : Obligations.StepRunsTheDecodedInstruction :=
  ⟨fun _ _ _ _ => stepWith_of_decode, fun _ => rfl⟩

end Sys2Proof.Machine
end

section
/-! The refusals of a step (40_engine.md R68 to R70): the closed list of reasons, the exact condition of each, and the domain of
`step` as the states where none of the conditions holds. -/

namespace Sys2Proof.Machine

/-! ### The closed list (40_engine.md R68) -/

/-- The reasons for which a step can be refused. -/
def stepRefusals : List Refusal := [.uOperandFetch, .uPcAdvance, .uSelRange, .uRegIndex, .uSpLow, .uSpHigh]

theorem refusals_subset_stepRefusals (m : Mnemonic) : refusals m ⊆ stepRefusals := by
  cases m <;> decide

/-- Settles O22: a reason other than the operand fetch is one of those listed for the instruction fetched. -/
theorem stepRefusesForSixReasonsOnly : Obligations.StepRefusesForSixReasonsOnly := by
  intro s r h
  by_cases hr : r = .uOperandFetch
  · rw [hr]
    decide
  · obtain ⟨-, i, -, he⟩ := (step_eq_refused_of_ne hr).mp h
    exact refusals_subset_stepRefusals i.mnemonic (exec_refused_reason he)

/-- A step that is not refused has a next state: the model's own faults are none. -/
theorem exists_next_iff_not_refused (o : StepOutcome) : (∃ t, o = .next t) ↔ ∀ r, o ≠ .refused r := by
  cases o with
  | next t => simp
  | fault f => cases f
  | refused r => simp

/-! ### Operands above address 255 (40_engine.md R69 (a)) -/

theorem uOperandFetch_mem_refusals {m : Mnemonic} : .uOperandFetch ∈ refusals m ↔ m.operandCount ≠ 0 := by
  cases m <;> decide

section
variable {i : Instr} {s : State} {a b : Byte}

theorem execSet_eq_refused_uOperandFetch : execSet a s = .refused .uOperandFetch ↔ 255 < s.pc.toNat + 1 := by
  simp [execSet_eq_refused]

theorem execSave_eq_refused_uOperandFetch : execSave a s = .refused .uOperandFetch ↔ 255 < s.pc.toNat + 1 := by
  simp [execSave_eq_refused]

theorem binary_eq_refused_uOperandFetch {op : Byte → Byte → Byte} :
    binary op a b s = .refused .uOperandFetch ↔ 255 < s.pc.toNat + 2 := by
  simp [binary_eq_refused]

theorem execDiv_eq_refused_uOperandFetch : execDiv a b s = .refused .uOperandFetch ↔ 255 < s.pc.toNat + 2 := by
  simp [execDiv_eq_refused]

/-- A meaning is refused for the operand fetch only where the operands do not lie in memory. -/
theorem exec_refused_uOperandFetch (h : exec i s = .refused .uOperandFetch) :
    255 < s.pc.toNat + i.mnemonic.operandCount := by
  cases i with
  | set n => exact execSet_eq_refused_uOperandFetch.mp h
  | save n => exact execSave_eq_refused_uOperandFetch.mp h
  | mul a b => exact binary_eq_refused_uOperandFetch.mp h
  | add a b => exact binary_eq_refused_uOperandFetch.mp h
  | sub a b => exact binary_eq_refused_uOperandFetch.mp h
  | div a b => exact execDiv_eq_refused_uOperandFetch.mp h
  | _ => exact absurd rfl (uOperandFetch_mem_refusals.mp (exec_refused_reason h))

end

/-- The fetch refuses operands that do not lie in memory before any meaning runs (40_engine.md R70 item 3). -/
theorem step_of_operands_outside {s : State} {m : Mnemonic} (hr : s.run = .running) (hm : s.mnemonicAtPc = some m)
    (hp : 255 < s.pc.toNat + m.operandCount) : step s = .refused .uOperandFetch := by
  rcases step_fetch_cases hr with ⟨hm', -⟩ | ⟨m', -, -, hs⟩ | ⟨i, ⟨hm', hp', -⟩, -⟩
  · rw [hm] at hm'
    cases hm'
  · exact hs
  · rw [hm] at hm'
    cases hm'
    omega

/-- Settles O23: the fetch makes the check, and after it no meaning is refused for it again. -/
theorem operandFetchRefusedExactly : Obligations.OperandFetchRefusedExactly := by
  intro s
  constructor
  · intro h
    cases hr : s.run with
    | halted =>
      rw [step_of_halted hr] at h
      cases h
    | running =>
      rcases step_fetch_cases hr with ⟨-, hs⟩ | ⟨m, hm, hp, -⟩ | ⟨i, ⟨-, hp, -⟩, hs⟩
      · rw [hs] at h
        cases h
      · exact ⟨rfl, m, hm, hp⟩
      · have hlt := exec_refused_uOperandFetch (hs ▸ h)
        rw [State.start_pc] at hlt
        omega
  · rintro ⟨hr, m, hm, hp⟩
    exact step_of_operands_outside hr hm hp

/-! ### The ends of the stack (43_stack_and_subroutine.md R100) -/

theorem uSpLow_mem_refusals {m : Mnemonic} : .uSpLow ∈ refusals m ↔ m ∈ pushers := by
  cases m <;> decide

theorem uSpHigh_mem_refusals {m : Mnemonic} : .uSpHigh ∈ refusals m ↔ m ∈ poppers := by
  cases m <;> decide

theorem operandCount_of_mem_stack {m : Mnemonic} (hm : m ∈ pushers ++ poppers) : m.operandCount = 0 := by
  revert hm
  cases m <;> decide

section
variable {i : Instr} {s : State}

theorem exec_eq_refused_uSpLow : exec i s = .refused .uSpLow ↔ i.mnemonic ∈ pushers ∧ s.sp = 0 := by
  constructor
  · intro h
    have hi : i.mnemonic ∈ pushers := uSpLow_mem_refusals.mp (exec_refused_reason h)
    refine ⟨hi, ?_⟩
    cases i with
    | push => simpa using execPush_eq_refused.mp h
    | call => simpa using execCall_eq_refused.mp h
    | _ => simp [Instr.mnemonic, pushers] at hi
  · rintro ⟨hi, hsp⟩
    cases i with
    | push => exact execPush_eq_refused.mpr (Or.inl ⟨hsp, rfl⟩)
    | call => exact execCall_eq_refused.mpr ⟨hsp, rfl⟩
    | _ => simp [Instr.mnemonic, pushers] at hi

theorem exec_eq_refused_uSpHigh : exec i s = .refused .uSpHigh ↔ i.mnemonic ∈ poppers ∧ s.sp = 255 := by
  constructor
  · intro h
    have hi : i.mnemonic ∈ poppers := uSpHigh_mem_refusals.mp (exec_refused_reason h)
    refine ⟨hi, ?_⟩
    cases i with
    | pop => simpa using execPop_eq_refused.mp h
    | ret => simpa using execRet_eq_refused.mp h
    | _ => simp [Instr.mnemonic, poppers] at hi
  · rintro ⟨hi, hsp⟩
    cases i with
    | pop => exact execPop_eq_refused.mpr (Or.inl ⟨hsp, rfl⟩)
    | ret => exact execRet_eq_refused.mpr ⟨hsp, rfl⟩
    | _ => simp [Instr.mnemonic, poppers] at hi

end

section
variable {s : State}

/-- A mnemonic without operands is fetched wherever it stands. -/
theorem State.exists_fetches_of_stack {m : Mnemonic} (hm : s.mnemonicAtPc = some m) (hi : m ∈ pushers ++ poppers) :
    ∃ i, i.mnemonic = m ∧ s.Fetches i := by
  have hpc := s.pc.isLt
  exact State.exists_fetches hm (by rw [operandCount_of_mem_stack hi]; omega)

theorem step_eq_refused_uSpLow :
    step s = .refused .uSpLow ↔ s.run = .running ∧ (∃ m, s.mnemonicAtPc = some m ∧ m ∈ pushers) ∧ s.sp = 0 := by
  rw [step_eq_refused_of_ne (by decide)]
  refine and_congr_right fun _ => ⟨?_, ?_⟩
  · rintro ⟨i, ⟨hm, -, -⟩, he⟩
    obtain ⟨hi, hsp⟩ := exec_eq_refused_uSpLow.mp he
    exact ⟨⟨i.mnemonic, hm, hi⟩, hsp⟩
  · rintro ⟨⟨m, hm, hi⟩, hsp⟩
    obtain ⟨i, rfl, hf⟩ := State.exists_fetches_of_stack hm (List.mem_append_left _ hi)
    exact ⟨i, hf, exec_eq_refused_uSpLow.mpr ⟨hi, hsp⟩⟩

theorem step_eq_refused_uSpHigh :
    step s = .refused .uSpHigh ↔ s.run = .running ∧ (∃ m, s.mnemonicAtPc = some m ∧ m ∈ poppers) ∧ s.sp = 255 := by
  rw [step_eq_refused_of_ne (by decide)]
  refine and_congr_right fun _ => ⟨?_, ?_⟩
  · rintro ⟨i, ⟨hm, -, -⟩, he⟩
    obtain ⟨hi, hsp⟩ := exec_eq_refused_uSpHigh.mp he
    exact ⟨⟨i.mnemonic, hm, hi⟩, hsp⟩
  · rintro ⟨⟨m, hm, hi⟩, hsp⟩
    obtain ⟨i, rfl, hf⟩ := State.exists_fetches_of_stack hm (List.mem_append_right _ hi)
    exact ⟨i, hf, exec_eq_refused_uSpHigh.mpr ⟨hi, hsp⟩⟩

end

/-! ### The advance of `pc` (40_engine.md R69 (b), R70 item 7) -/

theorem exists_toIndex_iff {n : Byte} : (∃ i, toIndex n = some i) ↔ n.toNat ≤ 7 := by
  rw [← Option.ne_none_iff_exists', ne_eq, toIndex_eq_none, not_lt]

section
variable {s : State} {a b : Byte}

theorem execSet_eq_refused_uPcAdvance :
    execSet a s = .refused .uPcAdvance ↔ s.pc.toNat + 1 ≤ 255 ∧ a.toNat ≤ 7 ∧ 255 < s.pc.toNat + 2 := by
  simp [execSet_eq_refused, toIndex_eq_none]

theorem execSave_eq_refused_uPcAdvance :
    execSave a s = .refused .uPcAdvance ↔ s.pc.toNat + 1 ≤ 255 ∧ 255 < s.pc.toNat + 2 := by
  simp [execSave_eq_refused]

theorem binary_eq_refused_uPcAdvance {op : Byte → Byte → Byte} :
    binary op a b s = .refused .uPcAdvance ↔
      s.pc.toNat + 2 ≤ 255 ∧ (a.toNat ≤ 7 ∧ b.toNat ≤ 7) ∧ 255 < s.pc.toNat + 3 := by
  simp [binary_eq_refused, ← exists_toIndex_iff, and_assoc]

theorem execDiv_eq_refused_uPcAdvance :
    execDiv a b s = .refused .uPcAdvance ↔
      s.pc.toNat + 2 ≤ 255 ∧ (a.toNat ≤ 7 ∧ b.toNat ≤ 7) ∧ s.xOf b ≠ 0 ∧ 255 < s.pc.toNat + 3 := by
  rw [execDiv_eq_refused, ← exists_toIndex_iff, ← exists_toIndex_iff]
  constructor
  · rintro (⟨-, h⟩ | ⟨-, -, h⟩ | ⟨hp, i, j, hi, hj, h0, hw, -⟩)
    · cases h
    · cases h
    · exact ⟨hp, ⟨⟨i, hi⟩, ⟨j, hj⟩⟩, State.xOf_of_toIndex hj ▸ h0, hw⟩
  · rintro ⟨hp, ⟨⟨i, hi⟩, ⟨j, hj⟩⟩, h0, hw⟩
    exact Or.inr (Or.inr ⟨hp, i, j, hi, hj, State.xOf_of_toIndex hj ▸ h0, hw, rfl⟩)

theorem execPush_eq_refused_uPcAdvance :
    execPush s = .refused .uPcAdvance ↔ s.sp ≠ 0 ∧ 255 < s.pc.toNat + 1 := by
  simp [execPush_eq_refused]

theorem execPop_eq_refused_uPcAdvance :
    execPop s = .refused .uPcAdvance ↔ s.sp ≠ 255 ∧ 255 < s.pc.toNat + 1 := by
  simp [execPop_eq_refused]

end

/-- The checks of an instruction `m` at `pc` between the operand fetch and the advance of `pc`: operands legal, no division by
zero, `sp` in range (40_engine.md R70 items 4 to 6). -/
def State.PassesChecks (s : State) (m : Mnemonic) : Prop :=
  s.operandsLegal m ∧ ¬ s.dividesByZero m ∧ (m ∈ pushers → s.sp ≠ 0) ∧ (m ∈ poppers → s.sp ≠ 255)

section
variable {s : State} {m : Mnemonic}

theorem State.passesChecks_of_unchecked (hm : m ∉ Mnemonic.set :: pairForms ++ pushers ++ poppers) : s.PassesChecks m := by
  simp only [List.mem_append, List.mem_cons, not_or] at hm
  obtain ⟨⟨⟨hset, hpair⟩, hpush⟩, hpop⟩ := hm
  refine ⟨⟨fun h => absurd h hset, fun h => absurd h hpair⟩, ?_, fun h => absurd h hpush, fun h => absurd h hpop⟩
  rintro ⟨rfl, -⟩
  exact hpair (by decide)

theorem State.passesChecks_set : s.PassesChecks .set ↔ (s.codeByte 1).toNat ≤ 7 := by
  simp [PassesChecks, State.operandsLegal, pairForms, pushers, poppers]

theorem State.passesChecks_pair (hm : m ∈ [Mnemonic.mul, .add, .sub]) :
    s.PassesChecks m ↔ (s.codeByte 1).toNat ≤ 7 ∧ (s.codeByte 2).toNat ≤ 7 := by
  simp only [List.mem_cons, List.not_mem_nil, or_false] at hm
  rcases hm with rfl | rfl | rfl <;> simp [PassesChecks, State.operandsLegal, pairForms, pushers, poppers]

theorem State.passesChecks_div :
    s.PassesChecks .div ↔ ((s.codeByte 1).toNat ≤ 7 ∧ (s.codeByte 2).toNat ≤ 7) ∧ s.xOf (s.codeByte 2) ≠ 0 := by
  simp [PassesChecks, State.operandsLegal, pairForms, pushers, poppers]

theorem State.passesChecks_push : s.PassesChecks .push ↔ s.sp ≠ 0 := by
  simp [PassesChecks, State.operandsLegal, pairForms, pushers, poppers]

theorem State.passesChecks_pop : s.PassesChecks .pop ↔ s.sp ≠ 255 := by
  simp [PassesChecks, State.operandsLegal, pairForms, pushers, poppers]

/-- The advance at the end of a one-byte instruction that is checked for nothing else. -/
theorem advance_one_eq_refused {t : State} (ht : t.pc = s.pc) (hm : m ∉ Mnemonic.set :: pairForms ++ pushers ++ poppers) :
    advance 1 t = .refused .uPcAdvance ↔ s.PassesChecks m ∧ 255 < s.pc.toNat + 1 := by
  rw [advance_eq_refused, ht, and_iff_left rfl, and_iff_right (State.passesChecks_of_unchecked hm)]

/-- What MUL, ADD and SUB share, on the operands at `pc`. -/
theorem binary_eq_refused_iff_passesChecks {op : Byte → Byte → Byte} (hm : m ∈ [Mnemonic.mul, .add, .sub])
    (hp : s.pc.toNat + 2 ≤ 255) :
    binary op (s.codeByte 1) (s.codeByte 2) s = .refused .uPcAdvance ↔ s.PassesChecks m ∧ 255 < s.pc.toNat + 3 := by
  rw [binary_eq_refused_uPcAdvance, State.passesChecks_pair hm, and_iff_right hp]

theorem uPcAdvance_mem_refusals : .uPcAdvance ∈ refusals m ↔ m ∈ advancers := by
  cases m <;> decide

/-- The meaning of a fetched instruction that advances `pc` is refused for the advance exactly after passing the checks
before. -/
theorem State.Fetches.exec_eq_refused_uPcAdvance {i : Instr} (hf : s.Fetches i) (hi : i.mnemonic ∈ advancers) :
    exec i s = .refused .uPcAdvance ↔ s.PassesChecks i.mnemonic ∧ 255 < s.pc.toNat + i.mnemonic.width := by
  have ⟨_, hp, ho⟩ := hf
  cases i with
  | init => exact advance_one_eq_refused rfl (by decide)
  | prn => exact advance_one_eq_refused rfl (by decide)
  | pra => exact advance_one_eq_refused rfl (by decide)
  | inc => exact advance_one_eq_refused rfl (by decide)
  | dec => exact advance_one_eq_refused rfl (by decide)
  | set n =>
    cases ho
    exact (execSet_eq_refused_uPcAdvance.trans (and_iff_right hp)).trans (and_congr_left' State.passesChecks_set.symm)
  | save n =>
    have hpass : s.PassesChecks .save := State.passesChecks_of_unchecked (by decide)
    exact (execSave_eq_refused_uPcAdvance.trans (and_iff_right hp)).trans (and_iff_right hpass).symm
  | mul a b => cases ho; exact binary_eq_refused_iff_passesChecks (m := .mul) (by decide) hp
  | add a b => cases ho; exact binary_eq_refused_iff_passesChecks (m := .add) (by decide) hp
  | sub a b => cases ho; exact binary_eq_refused_iff_passesChecks (m := .sub) (by decide) hp
  | div a b =>
    cases ho
    refine (execDiv_eq_refused_uPcAdvance.trans (and_iff_right hp)).trans ?_
    rw [← and_assoc]
    exact and_congr_left' State.passesChecks_div.symm
  | push => exact execPush_eq_refused_uPcAdvance.trans (and_congr_left' State.passesChecks_push.symm)
  | pop => exact execPop_eq_refused_uPcAdvance.trans (and_congr_left' State.passesChecks_pop.symm)
  | _ => simp [Instr.mnemonic, advancers] at hi

theorem step_eq_refused_uPcAdvance :
    step s = .refused .uPcAdvance ↔
      s.run = .running ∧ ∃ m, s.mnemonicAtPc = some m ∧ m ∈ advancers ∧ s.pc.toNat + m.operandCount ≤ 255 ∧
        s.PassesChecks m ∧ 255 < s.pc.toNat + m.width := by
  rw [step_eq_refused_of_ne (by decide)]
  refine and_congr_right fun _ => ⟨?_, ?_⟩
  · rintro ⟨i, hf, he⟩
    have ⟨hm, hp, _⟩ := hf
    have hi : i.mnemonic ∈ advancers := uPcAdvance_mem_refusals.mp (exec_refused_reason he)
    exact ⟨i.mnemonic, hm, hi, hp, (State.Fetches.exec_eq_refused_uPcAdvance (s := s.start) hf hi).mp he⟩
  · rintro ⟨m, hm, hi, hp, hrefused⟩
    obtain ⟨i, rfl, hf⟩ := State.exists_fetches hm hp
    exact ⟨i, hf, (State.Fetches.exec_eq_refused_uPcAdvance (s := s.start) hf hi).mpr hrefused⟩

end

/-- Settles O26: the advance is the last check of each instruction that makes it. -/
theorem pcAdvanceRefusedExactly : Obligations.PcAdvanceRefusedExactly := by
  intro s
  rw [step_eq_refused_uPcAdvance]
  simp only [State.PassesChecks, and_assoc]

/-! ### Where a step is defined (40_engine.md R68 to R70) -/

/-- None of the checks of an instruction `m` at `pc` fails; that of the advance of `pc` counts only where it is reached, after the
others and past a division by zero (40_engine.md R70). -/
def State.NoCheckFails (s : State) (m : Mnemonic) : Prop :=
  s.pc.toNat + m.operandCount ≤ 255 ∧ s.operandsLegal m ∧ (m ∈ pushers → s.sp ≠ 0) ∧ (m ∈ poppers → s.sp ≠ 255) ∧
    (m ∈ advancers → s.PassesChecks m → s.pc.toNat + m.width ≤ 255)

/-- A step has a next state exactly where none of the six reasons refuses it. -/
theorem exists_step_next_iff {s : State} :
    (∃ t, step s = .next t) ↔ ∀ r ∈ stepRefusals, step s ≠ .refused r := by
  rw [exists_next_iff_not_refused]
  exact ⟨fun h r _ => h r, fun h r hr => h r (stepRefusesForSixReasonsOnly s r hr) hr⟩

section
variable {s : State} {m : Mnemonic}

/-- The operands of a fetched instruction are legal exactly where the step is not refused for an index. -/
theorem operandsLegal_iff_not_refused (hr : s.run = .running) (hm : s.mnemonicAtPc = some m)
    (hp : s.pc.toNat + m.operandCount ≤ 255) :
    s.operandsLegal m ↔ step s ≠ .refused .uSelRange ∧ step s ≠ .refused .uRegIndex := by
  have hset : m = .set → s.pc.toNat + 1 ≤ 255 := by rintro rfl; exact hp
  have hpair : m ∈ pairForms → s.pc.toNat + 2 ≤ 255 := fun h => operandCount_of_mem_pairForms h ▸ hp
  simp only [ne_eq, step_eq_refused_uSelRange, step_eq_refused_uRegIndex, hr, hm, true_and, Option.some.injEq,
    exists_eq_left', not_and, not_or, not_lt]
  exact and_congr ⟨fun h hi _ => h hi, fun h hi => h hi (hset hi)⟩ ⟨fun h hi _ => h hi, fun h hi => h hi (hpair hi)⟩

/-- The step of a known opcode has a next state exactly where no check fails: each check is one of the refusals. -/
theorem exists_step_next_iff_of_known (hr : s.run = .running) (hm : s.mnemonicAtPc = some m) :
    (∃ t, step s = .next t) ↔ s.NoCheckFails m := by
  have hfetch : step s ≠ .refused .uOperandFetch ↔ s.pc.toNat + m.operandCount ≤ 255 := by
    simp [operandFetchRefusedExactly s, hr, hm]
  have hlow : step s ≠ .refused .uSpLow ↔ (m ∈ pushers → s.sp ≠ 0) := by
    simp [step_eq_refused_uSpLow, hr, hm]
  have hhigh : step s ≠ .refused .uSpHigh ↔ (m ∈ poppers → s.sp ≠ 255) := by
    simp [step_eq_refused_uSpHigh, hr, hm]
  rw [exists_step_next_iff, State.NoCheckFails]
  simp only [stepRefusals, List.forall_mem_cons, List.not_mem_nil, false_implies, implies_true, and_true, hfetch, hlow, hhigh]
  refine and_congr_right fun hp => ?_
  have hadvance : step s ≠ .refused .uPcAdvance ↔ (m ∈ advancers → s.PassesChecks m → s.pc.toNat + m.width ≤ 255) := by
    simp [step_eq_refused_uPcAdvance, hr, hm, hp]
  rw [hadvance, operandsLegal_iff_not_refused hr hm hp]
  tauto

/-- A DIV does not touch the stack. -/
theorem notMem_stack_of_dividesByZero (hz : s.dividesByZero m) : m ∉ pushers ∧ m ∉ poppers := by
  obtain ⟨rfl, -⟩ := hz
  decide

/-- The spec's domain of a step at a known opcode is where no check fails: a division by zero ends the checks early, and any
other instruction reaches the advance. -/
theorem stepDefined_iff_of_known (hr : s.run = .running) (hm : s.mnemonicAtPc = some m) :
    s.StepDefined ↔ s.NoCheckFails m := by
  simp only [State.StepDefined, State.NoCheckFails, hr, hm, reduceCtorEq, false_or, Option.some.injEq, exists_eq_left']
  refine and_congr_right fun _ => and_congr_right fun hlegal => ?_
  by_cases hz : s.dividesByZero m
  · obtain ⟨hpush, hpop⟩ := notMem_stack_of_dividesByZero hz
    exact iff_of_true (Or.inl hz) ⟨fun h => absurd h hpush, fun h => absurd h hpop, fun _ ⟨_, hnz, _⟩ => absurd hz hnz⟩
  · rw [or_iff_right hz]
    refine and_congr_right fun hpush => and_congr_right fun hpop => ?_
    have hpass : s.PassesChecks m := ⟨hlegal, hz, hpush, hpop⟩
    simp only [hpass, true_implies]

end

/-- Settles O21: a halted engine and an unknown opcode always have a next state, and for a known opcode the states where no
reason refuses the step are the spec's domain. -/
theorem stepIsDefinedExactlyWhereTheSpecSays : Obligations.StepIsDefinedExactlyWhereTheSpecSays := by
  intro s
  cases hr : s.run with
  | halted => exact iff_of_true ⟨_, step_of_halted hr⟩ (Or.inl hr)
  | running =>
    cases hm : s.mnemonicAtPc with
    | none => exact iff_of_true ⟨_, stepWith_of_unknown hr hm⟩ (Or.inr (Or.inl hm))
    | some m => rw [exists_step_next_iff_of_known hr hm, stepDefined_iff_of_known hr hm]

end Sys2Proof.Machine
end

section
/-! HALT, INIT, SET and SAVE (41_control_and_select.md): where each completes, with the state it ends in, and where each is
refused. Frames, the advance of `pc` and the refusals are those said once for every instruction. -/

namespace Sys2Proof.Machine

/-! ### What a completed instruction leaves behind -/

/-- Only HALT and DIV can end a running engine (10_state.md R17): the step of any other instruction returns `Continue`. -/
theorem exec_status_of_not_halting {i : Instr} {s t : State} (h : exec i s = .next t)
    (hi : i.mnemonic ∉ [Mnemonic.halt, .div]) (hr : s.run = .running) : t.status = .continued :=
  State.status_of_running ((exec_run_of_not_halting h hi).trans hr)

/-- The state after `x[sel] <- mask8(v)` and an advance of `pc` that stays in memory is the one `SelectedBecomes` speaks of. -/
theorem selectedBecomes_setSelected_mask8 {s : State} {width : Nat} (v : Int) (hp : s.pc.toNat + width ≤ 255) :
    SelectedBecomes s { s.setSelected (mask8 v) with pc := BitVec.ofNat 8 (s.pc.toNat + width) } v width := by
  refine ⟨?_, fun k hk => ?_, toNat_address hp, by simp [SameExcept], State.status_of_running⟩
  · change (((s.setSelected (mask8 v)).x s.sel).toNat : Int) = v % 256
    rw [State.setSelected_x, if_pos rfl, toNat_mask8]
  · change (s.setSelected (mask8 v)).x k = s.x k
    rw [State.setSelected_x, if_neg hk]

/-! ### HALT, INIT, SET, SAVE -/

section
variable {s : State} {n : Byte}

theorem execInit_eq_refused {r : Refusal} : execInit s = .refused r ↔ 255 < s.pc.toNat + 1 ∧ r = .uPcAdvance :=
  advance_eq_refused

theorem exec_init_completes (hp : s.pc.toNat + 1 ≤ 255) :
    ∃ t, exec .init s = .next t ∧ t.sel = 0 ∧ t.pc.toNat = s.pc.toNat + 1 ∧ SameExcept [.sel, .pc] s t ∧
      (s.run = .running → t.status = .continued) := by
  have h : exec .init s = .next _ := execInit_eq_next.mpr ⟨hp, rfl⟩
  exact ⟨_, h, rfl, exec_pc_of_advancer h (by decide) (by decide), exec_sameExcept h,
    exec_status_of_not_halting h (by decide)⟩

theorem exec_set_completes (hp : s.pc.toNat + 2 ≤ 255) (hn : n.toNat ≤ 7) :
    ∃ t, exec (.set n) s = .next t ∧ t.sel.val = n.toNat ∧ t.pc.toNat = s.pc.toNat + 2 ∧ SameExcept [.sel, .pc] s t ∧
      (s.run = .running → t.status = .continued) := by
  have h : exec (.set n) s = .next _ := execSet_eq_next.mpr ⟨_, toIndex_of_le hn, hp, rfl⟩
  exact ⟨_, h, rfl, exec_pc_of_advancer h (by simp [Instr.mnemonic, advancers]) (by simp [Instr.mnemonic]), exec_sameExcept h,
    exec_status_of_not_halting h (by simp [Instr.mnemonic])⟩

/-- An operand byte is its own value modulo 256, so SAVE writes it whole. -/
theorem exec_save_completes (hp : s.pc.toNat + 2 ≤ 255) :
    ∃ t, exec (.save n) s = .next t ∧ SelectedBecomes s t n.toNat 2 := by
  have h : execSave n s = .next { s.setSelected (mask8 n.toNat) with pc := BitVec.ofNat 8 (s.pc.toNat + 2) } := by
    rw [mask8_toNat]
    exact execSave_eq_next.mpr ⟨hp, rfl⟩
  exact ⟨_, h, selectedBecomes_setSelected_mask8 n.toNat hp⟩

end

/-- Settles O29: the completion, and each refusal from its exact condition. -/
theorem setSelectsItsOperand : Obligations.SetSelectsItsOperand := by
  intro s n
  refine ⟨rfl, fun hp hn => exec_set_completes (by omega) hn, fun hp => ?_, fun hp hn => ?_, fun hp hn => ?_⟩
  · exact execSet_eq_refused_uOperandFetch.mpr (by omega)
  · exact execSet_eq_refused_uSelRange.mpr ⟨by omega, hn⟩
  · exact execSet_eq_refused_uPcAdvance.mpr ⟨by omega, hn, by omega⟩

/-- Settles O27: HALT has no check, its frame is that of `exec`, and its status is read off `run` and the fault record. -/
theorem haltStopsTheEngine : Obligations.HaltStopsTheEngine := by
  refine ⟨rfl, fun s => ?_⟩
  have h : exec .halt s = .next s.halt := execHalt_eq_next.mpr rfl
  exact ⟨_, h, s.halt_run, exec_sameExcept h, fun hf => State.status_eq_halted.mpr ⟨s.halt_run, hf⟩⟩

/-- Settles O28: the advance of `pc` is the one check of INIT. -/
theorem initSelectsRegisterZero : Obligations.InitSelectsRegisterZero :=
  ⟨rfl, fun _ => ⟨fun hp => exec_init_completes (by omega), fun hp => execInit_eq_refused.mpr ⟨by omega, rfl⟩⟩⟩

/-- Settles O30: the completion, and each refusal from its exact condition. -/
theorem saveStoresItsOperand : Obligations.SaveStoresItsOperand := by
  intro s n
  refine ⟨rfl, fun hp => exec_save_completes (by omega), fun hp => ?_, fun hp => ?_⟩
  · exact execSave_eq_refused_uOperandFetch.mpr (by omega)
  · exact execSave_eq_refused_uPcAdvance.mpr ⟨by omega, by omega⟩

end Sys2Proof.Machine
end

section
/-! MUL, ADD, SUB, DIV, INC and DEC (42_alu.md): the arithmetic laws, and each instruction's completion, fault and refusals. Every
result is `mask8` of an exact integer, so that the effect is the one already said of such a write; what MUL, ADD and SUB share,
and what INC and DEC share, is proved once for any operation. -/

namespace Sys2Proof.Machine

/-! ### The arithmetic laws (42_alu.md R97) -/

section
variable (va vb : Byte)

/-- The exact sum is below 512, so taking it modulo 256 takes 256 off at most once. -/
theorem toNat_aluAdd :
    (aluAdd va vb).toNat = if va.toNat + vb.toNat < 256 then va.toNat + vb.toNat else va.toNat + vb.toNat - 256 := by
  have hsum : ((aluAdd va vb).toNat : Int) = ((va.toNat : Int) + vb.toNat) % 256 := toNat_mask8 _
  split <;> omega

/-- The exact difference is above -256, so taking it modulo 256 adds 256 at most once. -/
theorem toNat_aluSub :
    (aluSub va vb).toNat = if vb.toNat ≤ va.toNat then va.toNat - vb.toNat else va.toNat + 256 - vb.toNat := by
  have hdiff : ((aluSub va vb).toNat : Int) = ((va.toNat : Int) - vb.toNat) % 256 := toNat_mask8 _
  split <;> omega

theorem toNat_aluMul : (aluMul va vb).toNat = va.toNat * vb.toNat % 256 := by
  have hprod : ((aluMul va vb).toNat : Int) = ((va.toNat : Int) * vb.toNat) % 256 := toNat_mask8 _
  exact_mod_cast hprod

/-- The quotient of two bytes is a byte: DIV needs no masking. -/
theorem toNat_aluDiv : (aluDiv va vb).toNat = va.toNat / vb.toNat :=
  Nat.mod_eq_of_lt ((Nat.div_le_self _ _).trans_lt va.isLt)

theorem aluDiv_eq_mask8 : aluDiv va vb = mask8 ((va.toNat / vb.toNat : Nat) : Int) :=
  (mask8_natCast _).symm

theorem aluDiv_isFloor (hvb : vb ≠ 0) :
    (aluDiv va vb).toNat * vb.toNat ≤ va.toNat ∧ va.toNat < ((aluDiv va vb).toNat + 1) * vb.toNat := by
  have hpos : 0 < vb.toNat := Nat.pos_of_ne_zero fun h => hvb (BitVec.eq_of_toNat_eq h)
  rw [toNat_aluDiv]
  exact ⟨Nat.div_mul_le_self _ _, (Nat.div_lt_iff_lt_mul hpos).mp (Nat.lt_succ_self _)⟩

theorem toNat_aluInc : (aluInc va).toNat = if va = 255 then 0 else va.toNat + 1 := by
  have hinc : ((aluInc va).toNat : Int) = ((va.toNat : Int) + 1) % 256 := toNat_mask8 _
  have h255 : va = 255 ↔ va.toNat = 255 := BitVec.toNat_inj.symm
  simp only [h255]
  split <;> omega

theorem toNat_aluDec : (aluDec va).toNat = if va = 0 then 255 else va.toNat - 1 := by
  have hdec : ((aluDec va).toNat : Int) = ((va.toNat : Int) - 1) % 256 := toNat_mask8 _
  have h0 : va = 0 ↔ va.toNat = 0 := BitVec.toNat_inj.symm
  simp only [h0]
  split <;> omega

end

/-- Settles O37: the law of each operation. -/
theorem arithmeticWrapsModulo256 : Obligations.ArithmeticWrapsModulo256 := fun va vb =>
  ⟨toNat_aluAdd va vb, toNat_aluSub va vb, toNat_aluMul va vb, aluDiv_isFloor va vb, toNat_aluInc va, toNat_aluDec va⟩

/-! ### MUL, ADD, SUB (42_alu.md R91 to R93) -/

section
variable {s : State} {a b : Byte} {i j : RegIdx}

/-- The registers are those of the state before the write, so a source may also be the destination (42_alu.md R90). -/
theorem binary_completes {op : Byte → Byte → Byte} {result : Int → Int → Int}
    (hop : ∀ va vb : Byte, op va vb = mask8 (result va.toNat vb.toNat))
    (ha : a.toNat = i.val) (hb : b.toNat = j.val) (hp : s.pc.toNat + 3 ≤ 255) :
    ∃ t, binary op a b s = .next t ∧ SelectedBecomes s t (result (s.x i).toNat (s.x j).toNat) 3 := by
  have h : binary op a b s = .next _ :=
    binary_eq_next.mpr ⟨i, j, toIndex_eq_some.mpr ha, toIndex_eq_some.mpr hb, hp, rfl⟩
  rw [hop] at h
  exact ⟨_, h, selectedBecomes_setSelected_mask8 _ hp⟩

end

/-- The rule of an instruction whose meaning is `binary` of an operation that is exact on integers, then masked. -/
theorem pairRule_of_binary {form : Byte → Byte → Instr} {opcode : Byte} {op : Byte → Byte → Byte}
    {result : Int → Int → Int} (hencode : ∀ a b, encode (form a b) = [opcode, a, b])
    (hexec : ∀ a b s, exec (form a b) s = binary op a b s)
    (hop : ∀ va vb : Byte, op va vb = mask8 (result va.toNat vb.toNat)) : PairRule form opcode result := by
  intro s a b
  rw [hexec]
  refine ⟨hencode a b, fun i j ha hb hp => ?_, fun hp => ?_, fun hp hab => ?_, fun hp ha hb => ?_⟩
  · exact binary_completes hop ha hb (by omega)
  · exact binary_eq_refused_uOperandFetch.mpr (by omega)
  · exact binary_eq_refused_uRegIndex.mpr ⟨by omega, hab⟩
  · exact binary_eq_refused_uPcAdvance.mpr ⟨by omega, ⟨ha, hb⟩, by omega⟩

/-- Settles O31, from the shared rule of MUL, ADD and SUB. -/
theorem mulStoresTheProduct : Obligations.MulStoresTheProduct :=
  pairRule_of_binary (op := aluMul) (fun _ _ => rfl) (fun _ _ _ => rfl) fun _ _ => rfl

/-- Settles O32, from the shared rule of MUL, ADD and SUB. -/
theorem addStoresTheSum : Obligations.AddStoresTheSum :=
  pairRule_of_binary (op := aluAdd) (fun _ _ => rfl) (fun _ _ _ => rfl) fun _ _ => rfl

/-- Settles O33, from the shared rule of MUL, ADD and SUB. -/
theorem subStoresTheDifference : Obligations.SubStoresTheDifference :=
  pairRule_of_binary (op := aluSub) (fun _ _ => rfl) (fun _ _ _ => rfl) fun _ _ => rfl

/-! ### DIV (42_alu.md R94) -/

section
variable {s : State} {a b : Byte} {i j : RegIdx}

theorem exec_div_completes (ha : a.toNat = i.val) (hb : b.toNat = j.val) (hdivisor : s.x j ≠ 0)
    (hp : s.pc.toNat + 3 ≤ 255) :
    ∃ t, exec (.div a b) s = .next t ∧ SelectedBecomes s t ((s.x i).toNat / (s.x j).toNat : Nat) 3 := by
  have h : exec (.div a b) s = .next _ :=
    execDiv_eq_next.mpr ⟨i, j, toIndex_eq_some.mpr ha, toIndex_eq_some.mpr hb, Or.inr ⟨hdivisor, hp, rfl⟩⟩
  rw [aluDiv_eq_mask8] at h
  exact ⟨_, h, selectedBecomes_setSelected_mask8 _ hp⟩

/-- The fault comes before the check of the advance of `pc`, so it is taken at address 253 too (40_engine.md R70 item 5). -/
theorem exec_div_faults (ha : a.toNat = i.val) (hb : b.toNat = j.val) (hdivisor : s.x j = 0) (hp : s.pc.toNat + 2 ≤ 255) :
    ∃ t, exec (.div a b) s = .next t ∧ t.fault = some (.divisionByZero i j) ∧
      t.status = .faulted (.divisionByZero i j) ∧ SameExcept [.run, .fault] s t := by
  have h : exec (.div a b) s = .next (s.takeFault (.divisionByZero i j)) :=
    execDiv_eq_next.mpr ⟨i, j, toIndex_eq_some.mpr ha, toIndex_eq_some.mpr hb, Or.inl ⟨hdivisor, hp, rfl⟩⟩
  exact ⟨_, h, s.takeFault_fault _, State.status_eq_faulted.mpr ⟨s.takeFault_run _, s.takeFault_fault _⟩,
    by simp [SameExcept]⟩

theorem exec_div_refuses_advance (ha : a.toNat = i.val) (hb : b.toNat = j.val) (hdivisor : s.x j ≠ 0)
    (hp : s.pc.toNat = 253) : exec (.div a b) s = .refused .uPcAdvance :=
  execDiv_eq_refused.mpr (Or.inr (Or.inr
    ⟨by omega, i, j, toIndex_eq_some.mpr ha, toIndex_eq_some.mpr hb, hdivisor, by omega, rfl⟩))

end

/-- Settles O34: the quotient and the fault by the divisor, and each refusal from its exact condition. -/
theorem divStoresTheQuotientOrFaults : Obligations.DivStoresTheQuotientOrFaults := by
  intro s a b
  refine ⟨rfl, fun i j ha hb => ⟨fun h0 hp => ?_, fun h0 hp => ?_, fun h0 hp => ?_⟩, fun hp => ?_, fun hp hab => ?_⟩
  · exact exec_div_completes ha hb h0 (by omega)
  · exact exec_div_faults ha hb h0 (by omega)
  · exact exec_div_refuses_advance ha hb h0 hp
  · exact execDiv_eq_refused_uOperandFetch.mpr (by omega)
  · exact execDiv_eq_refused_uRegIndex.mpr ⟨by omega, hab⟩

/-! ### INC, DEC (42_alu.md R95, R96) -/

/-- The rule of an instruction whose meaning is an operation on the selected register, exact on integers and then masked, and an
advance of `pc` by one. -/
theorem unaryRule_of_advance {form : Instr} {opcode : Byte} {op : Byte → Byte} {result : Int → Int}
    (hencode : encode form = [opcode]) (hexec : ∀ s, exec form s = advance 1 (s.setSelected (op s.selected)))
    (hop : ∀ v : Byte, op v = mask8 (result v.toNat)) : UnaryRule form opcode result := by
  intro s
  rw [hexec, hop]
  refine ⟨hencode, fun hp => ?_, fun hp => ?_⟩
  · have hadvance : s.pc.toNat + 1 ≤ 255 := by omega
    exact ⟨_, advance_eq_next.mpr ⟨hadvance, rfl⟩, selectedBecomes_setSelected_mask8 _ hadvance⟩
  · exact advance_eq_refused.mpr ⟨by rw [State.setSelected_pc]; omega, rfl⟩

/-- Settles O35, from the shared rule of INC and DEC. -/
theorem incAddsOne : Obligations.IncAddsOne :=
  unaryRule_of_advance (op := aluInc) rfl (fun _ => rfl) fun _ => rfl

/-- Settles O36, from the shared rule of INC and DEC. -/
theorem decSubtractsOne : Obligations.DecSubtractsOne :=
  unaryRule_of_advance (op := aluDec) rfl (fun _ => rfl) fun _ => rfl

end Sys2Proof.Machine
end

section
/-! PUSH, POP, CALL and RET (43_stack_and_subroutine.md): where `sp` goes, where each completes and where it is refused, and
that a pop undoes the push before it. What PUSH and CALL store, every frame and every refusal are those said once before. -/

namespace Sys2Proof.Machine

/-! ### The ends of the stack (43_stack_and_subroutine.md R100) -/

/-- Settles O25: the exact condition of each of the two refusals. -/
theorem stackLimitRefusedExactly : Obligations.StackLimitRefusedExactly :=
  fun _ => ⟨step_eq_refused_uSpLow, step_eq_refused_uSpHigh⟩

/-! ### The stack pointer (43_stack_and_subroutine.md R100) -/

section
variable {i j : Instr} {s t t' u : State}

theorem exec_sp_of_pusher (h : exec i s = .next t) (hi : i.mnemonic ∈ pushers) : s.sp ≠ 0 ∧ t.sp = s.sp - 1 := by
  cases i with
  | push => obtain ⟨h0, -, rfl⟩ := execPush_eq_next.mp h; exact ⟨h0, rfl⟩
  | call => obtain ⟨h0, rfl⟩ := execCall_eq_next.mp h; exact ⟨h0, rfl⟩
  | _ => simp [Instr.mnemonic, pushers] at hi

theorem exec_sp_of_popper (h : exec i s = .next t) (hi : i.mnemonic ∈ poppers) : s.sp ≠ 255 ∧ t.sp = s.sp + 1 := by
  cases i with
  | pop => obtain ⟨hsp, -, rfl⟩ := execPop_eq_next.mp h; exact ⟨hsp, rfl⟩
  | ret => obtain ⟨hsp, rfl⟩ := execRet_eq_next.mp h; exact ⟨hsp, rfl⟩
  | _ => simp [Instr.mnemonic, poppers] at hi

/-- A push does not wrap: `sp` goes down by one as a number. -/
theorem exec_toNat_sp_of_pusher (h : exec i s = .next t) (hi : i.mnemonic ∈ pushers) : t.sp.toNat + 1 = s.sp.toNat := by
  obtain ⟨h0, hsp⟩ := exec_sp_of_pusher h hi
  rw [hsp]
  bv_omega

/-- A pop does not wrap: `sp` goes up by one as a number. -/
theorem exec_toNat_sp_of_popper (h : exec i s = .next t) (hi : i.mnemonic ∈ poppers) : t.sp.toNat = s.sp.toNat + 1 := by
  obtain ⟨h255, hsp⟩ := exec_sp_of_popper h hi
  rw [hsp]
  bv_omega

/-- The stack is not empty after a push, so a pop is not refused there. -/
theorem exec_sp_ne_255_of_pusher (h : exec i s = .next t) (hi : i.mnemonic ∈ pushers) : t.sp ≠ 255 := by
  have hsp := exec_toNat_sp_of_pusher h hi
  bv_omega

theorem exec_memRead_of_ne_new_sp (h : exec i s = .next t) (hi : i.mnemonic ∈ pushers) {a : Byte} (ha : a ≠ t.sp) :
    t.memRead a = s.memRead a := by
  obtain ⟨-, hsp⟩ := exec_sp_of_pusher h hi
  exact exec_memRead_of_pusher h hi (hsp ▸ ha)

/-- A pop brings `sp` back to where it was before the push. -/
theorem exec_sp_of_pusher_popper (h : exec i s = .next t) (hi : i.mnemonic ∈ pushers) (h' : exec j t' = .next u)
    (hj : j.mnemonic ∈ poppers) (ht' : t'.sp = t.sp) : u.sp = s.sp := by
  obtain ⟨-, hpush⟩ := exec_sp_of_pusher h hi
  obtain ⟨-, hpop⟩ := exec_sp_of_popper h' hj
  rw [hpop, ht', hpush, BitVec.sub_add_cancel]

/-! ### The top of the stack (43_stack_and_subroutine.md R101 to R104) -/

theorem exec_push_top (h : exec .push s = .next t) : t.memRead t.sp = s.x s.sel := by
  rw [exec_push_memRead h, if_pos (exec_push_sp h)]

theorem exec_call_top (h : exec .call s = .next t) : t.memRead t.sp = BitVec.ofNat 8 (s.pc.toNat + 1) := by
  rw [exec_call_memRead h, if_pos (exec_call_sp h)]

theorem exec_pop_regs (h : exec .pop s = .next t) : t.regs = s.regs.set s.sel (s.memRead s.sp) := by
  obtain ⟨-, -, rfl⟩ := execPop_eq_next.mp h
  rfl

theorem exec_pop_selected (h : exec .pop s = .next t) : t.x s.sel = s.memRead s.sp := by
  rw [State.x, exec_pop_regs h, GeneralRegs.get_set, if_pos rfl]

theorem exec_call_pc (h : exec .call s = .next t) : t.pc = s.x s.sel := by
  obtain ⟨-, rfl⟩ := execCall_eq_next.mp h
  rfl

theorem exec_ret_pc (h : exec .ret s = .next t) : t.pc = s.memRead s.sp := by
  obtain ⟨-, rfl⟩ := execRet_eq_next.mp h
  rfl

/-! ### Where the four instructions complete -/

theorem exec_push_completes (hsp : s.sp ≠ 0) (hp : s.pc.toNat + 1 ≤ 255) : ∃ t, exec .push s = .next t :=
  ⟨_, execPush_eq_next.mpr ⟨hsp, hp, rfl⟩⟩

theorem exec_pop_completes (hsp : s.sp ≠ 255) (hp : s.pc.toNat + 1 ≤ 255) : ∃ t, exec .pop s = .next t :=
  ⟨_, execPop_eq_next.mpr ⟨hsp, hp, rfl⟩⟩

theorem exec_call_completes (hsp : s.sp ≠ 0) : ∃ t, exec .call s = .next t :=
  ⟨_, execCall_eq_next.mpr ⟨hsp, rfl⟩⟩

theorem exec_ret_completes (hsp : s.sp ≠ 255) : ∃ t, exec .ret s = .next t :=
  ⟨_, execRet_eq_next.mpr ⟨hsp, rfl⟩⟩

end

/-- Settles O38: where PUSH completes, its effect element by element, and each refusal from its exact condition. -/
theorem pushStoresBelowTheStackPointer : Obligations.PushStoresBelowTheStackPointer := by
  refine ⟨rfl, fun s => ⟨fun hsp hp => ?_, fun hsp => ?_, fun hsp hp => ?_⟩⟩
  · obtain ⟨t, h⟩ := exec_push_completes hsp (by omega)
    exact ⟨t, h, exec_toNat_sp_of_pusher h (by decide), exec_push_top h,
      fun a ha => exec_memRead_of_ne_new_sp h (by decide) ha, exec_pc_of_advancer h (by decide) (by decide),
      exec_sameExcept h, exec_status_of_not_halting h (by decide)⟩
  · exact exec_eq_refused_uSpLow.mpr ⟨by decide, hsp⟩
  · exact execPush_eq_refused_uPcAdvance.mpr ⟨hsp, by omega⟩

/-- Settles O39: where POP completes, its effect element by element, and each refusal from its exact condition. -/
theorem popLoadsTheTopOfTheStack : Obligations.PopLoadsTheTopOfTheStack := by
  refine ⟨rfl, fun s => ⟨fun hsp hp => ?_, fun hsp => ?_, fun hsp hp => ?_⟩⟩
  · obtain ⟨t, h⟩ := exec_pop_completes hsp (by omega)
    exact ⟨t, h, exec_pop_selected h, fun k hk => exec_x_of_ne_sel h hk, exec_toNat_sp_of_popper h (by decide),
      exec_pc_of_advancer h (by decide) (by decide), exec_sameExcept h, exec_status_of_not_halting h (by decide)⟩
  · exact exec_eq_refused_uSpHigh.mpr ⟨by decide, hsp⟩
  · exact execPop_eq_refused_uPcAdvance.mpr ⟨hsp, by omega⟩

/-- Settles O40: CALL has no check of `pc`, so it completes at every address, and the byte it stores is masked. -/
theorem callPushesTheReturnAddress : Obligations.CallPushesTheReturnAddress := by
  refine ⟨rfl, fun s => ⟨fun hsp => ?_, fun hsp => ?_⟩⟩
  · obtain ⟨t, h⟩ := exec_call_completes hsp
    have htop : (t.memRead t.sp).toNat = (s.pc.toNat + 1) % 256 := by rw [exec_call_top h, BitVec.toNat_ofNat]
    exact ⟨t, h, exec_toNat_sp_of_pusher h (by decide), htop, fun a ha => exec_memRead_of_ne_new_sp h (by decide) ha,
      exec_call_pc h, exec_sameExcept h, exec_status_of_not_halting h (by decide)⟩
  · exact exec_eq_refused_uSpLow.mpr ⟨by decide, hsp⟩

/-- Settles O41: RET has no check of `pc`, so it completes at every address. -/
theorem retPopsTheProgramCounter : Obligations.RetPopsTheProgramCounter := by
  refine ⟨rfl, fun s => ⟨fun hsp => ?_, fun hsp => ?_⟩⟩
  · obtain ⟨t, h⟩ := exec_ret_completes hsp
    exact ⟨t, h, exec_ret_pc h, exec_toNat_sp_of_popper h (by decide), exec_sameExcept h,
      exec_status_of_not_halting h (by decide)⟩
  · exact exec_eq_refused_uSpHigh.mpr ⟨by decide, hsp⟩

/-! ### A pop after a push -/

/-- The last write to a general register is the one that counts. -/
theorem GeneralRegs.set_set (r : GeneralRegs) (i : RegIdx) (v w : Byte) : (r.set i v).set i w = r.set i w := by
  fin_cases i <;> rfl

section
variable {s t u : State}

theorem State.setX_sameExcept (s : State) (i : RegIdx) (v : Byte) : SameExcept [.regs] s (s.setX i v) := by
  simp [SameExcept]

/-- Frames compose: what neither part changes, both together leave alone. -/
theorem SameExcept.trans {c d : List Element} (h : SameExcept c s t) (h' : SameExcept d t u) : SameExcept (c ++ d) s u := by
  simp only [SameExcept, List.mem_append, not_or] at h h' ⊢
  grind

theorem SameExcept.mono {c d : List Element} (h : SameExcept c s t) (hcd : c ⊆ d) : SameExcept d s t := by
  obtain ⟨hregs, hpc, hsp, hsel, hrun, hfault, hout, hstarted, hmem⟩ := h
  exact ⟨hregs ∘ mt (@hcd _), hpc ∘ mt (@hcd _), hsp ∘ mt (@hcd _), hsel ∘ mt (@hcd _), hrun ∘ mt (@hcd _),
    hfault ∘ mt (@hcd _), hout ∘ mt (@hcd _), hstarted ∘ mt (@hcd _), hmem ∘ mt (@hcd _)⟩

/-- With `regs` and `sp` restored, what pushes and pops change comes down to `pc` and memory. -/
theorem SameExcept.of_restored (h : SameExcept [.regs, .sp, .pc, .mem] s u) (hregs : u.regs = s.regs) (hsp : u.sp = s.sp) :
    SameExcept [.pc, .mem] s u := by
  simpa [SameExcept, hregs, hsp] using h

/-- The selected register of the first state is what PUSH stored and POP reads, and the value in between is overwritten. -/
theorem exec_push_pop_regs {v : Byte} (h : exec .push s = .next t) (h' : exec .pop (t.setX t.sel v) = .next u) :
    u.regs = s.regs := by
  have hregs : t.regs = s.regs := exec_regs_of_not_writer h (by decide)
  have hsel : t.sel = s.sel := exec_sel_of_not_select h (by decide)
  have htop : t.memRead t.sp = s.regs.get s.sel := exec_push_top h
  calc u.regs = (t.regs.set t.sel v).set t.sel (t.memRead t.sp) := exec_pop_regs h'
    _ = s.regs.set s.sel (s.regs.get s.sel) := by rw [GeneralRegs.set_set, htop, hregs, hsel]
    _ = s.regs := s.regs.set_get_self s.sel

end

/-- Settles O42: the POP completes because the stack is not empty after the PUSH; the frames of the two compose, and `regs` and
`sp` are restored. -/
theorem popUndoesPush : Obligations.PopUndoesPush := by
  intro s v hsp hp
  obtain ⟨t, hpush⟩ := exec_push_completes hsp (by omega)
  have hpc : t.pc.toNat = s.pc.toNat + 1 := exec_pc_of_advancer hpush (by decide) (by decide)
  have hnonempty : t.sp ≠ 255 := exec_sp_ne_255_of_pusher hpush (by decide)
  obtain ⟨u, hpop⟩ := exec_pop_completes (s := t.setX t.sel v) hnonempty (by rw [State.setX_pc]; omega)
  have hframe : SameExcept [.regs, .sp, .pc, .mem] s u :=
    (((exec_sameExcept hpush).trans (t.setX_sameExcept t.sel v)).trans (exec_sameExcept hpop)).mono (by decide)
  exact ⟨t, u, hpush, hpop, hframe.of_restored (exec_push_pop_regs hpush hpop)
    (exec_sp_of_pusher_popper hpush (by decide) hpop (by decide) rfl)⟩

/-- Settles O43: RET completes because the stack is not empty after the CALL, and its `pc` is the return address CALL stored. -/
theorem retReturnsAfterCall : Obligations.RetReturnsAfterCall := by
  intro s hsp
  obtain ⟨t, hcall⟩ := exec_call_completes hsp
  obtain ⟨u, hret⟩ := exec_ret_completes (exec_sp_ne_255_of_pusher hcall (by decide))
  have hpc : u.pc.toNat = (s.pc.toNat + 1) % 256 := by rw [exec_ret_pc hret, exec_call_top hcall, BitVec.toNat_ofNat]
  have hregs : u.regs = s.regs :=
    (exec_regs_of_not_writer hret (by decide)).trans (exec_regs_of_not_writer hcall (by decide))
  have hframe : SameExcept [.regs, .sp, .pc, .mem] s u :=
    ((exec_sameExcept hcall).trans (exec_sameExcept hret)).mono (by decide)
  exact ⟨t, u, hcall, hret, hpc, hframe.of_restored hregs
    (exec_sp_of_pusher_popper hcall (by decide) hret (by decide) rfl)⟩

end Sys2Proof.Machine
end

section
/-! PRN and PRA (44_output.md): the one event each appends. The two differ only in the event that carries the selected
register. -/

namespace Sys2Proof.Machine

/-- The rule of an instruction whose meaning emits the selected register and advances `pc` by one: the advance is its one
check. -/
theorem outputRule_of_emit {form : Instr} {opcode : Byte} {event : Byte → OutputEvent}
    (hencode : encode form = [opcode]) (hexec : ∀ s, exec form s = advance 1 (s.emit (event s.selected))) :
    OutputRule form opcode event := by
  intro s
  rw [hexec]
  refine ⟨hencode, fun hp => ?_, fun hp => ?_⟩
  · have hadvance : s.pc.toNat + 1 ≤ 255 := by omega
    exact ⟨_, advance_eq_next.mpr ⟨hadvance, rfl⟩, rfl, toNat_address hadvance, by simp [SameExcept], State.status_of_running⟩
  · exact advance_eq_refused.mpr ⟨by rw [State.emit_pc]; omega, rfl⟩

/-- Settles O45, from the shared rule of PRN and PRA. -/
theorem prnEmitsTheInteger : Obligations.PrnEmitsTheInteger :=
  outputRule_of_emit rfl fun _ => rfl

/-- Settles O46, from the shared rule of PRN and PRA: the code is emitted whatever it is. -/
theorem praEmitsTheCharacter : Obligations.PraEmitsTheCharacter :=
  outputRule_of_emit rfl fun _ => rfl

end Sys2Proof.Machine
end

section
/-! Faults (60_exceptions.md): the unknown-opcode fault, and the preciseness of every fault a step latches. All that a step does
to the fault record is `State.takeFault`. -/

namespace Sys2Proof.Machine

/-- The elements a step that takes a fault may change (60_exceptions.md R124). -/
theorem start_takeFault_sameExcept (s : State) (f : FaultRecord) :
    SameExcept [.run, .fault, .started] s (s.start.takeFault f) := by
  simp [SameExcept]

/-- Settles O20: the step takes the fault from the state with `started` set, and the status reads the record just latched. -/
theorem unknownOpcodeTakesItsFault : Obligations.UnknownOpcodeTakesItsFault := by
  intro opc s hr hopc
  have hstep := stepWith_of_unknown hr (decodeOpcodeWith_eq_none.mpr hopc)
  exact ⟨_, hstep, State.takeFault_fault _ _,
    State.status_eq_faulted.mpr ⟨State.takeFault_run _ _, State.takeFault_fault _ _⟩, rfl, start_takeFault_sameExcept s _⟩

/-- An instruction leaves the fault record or takes a fault and does nothing more: only DIV takes one, in place of its
quotient. -/
theorem exec_fault_cases {i : Instr} {s t : State} (h : exec i s = .next t) :
    t.fault = s.fault ∨ ∃ f, t = s.takeFault f := by
  cases i with
  | div a b =>
    rcases execDiv_next_cases h with ⟨-, hfault⟩ | ⟨-, -, v, rfl⟩
    · exact Or.inr hfault
    · exact Or.inl rfl
  | _ => exact Or.inl (exec_fault_of_ne_div h (by simp [Instr.mnemonic]))

/-- A step leaves the fault record or takes a fault and does nothing more than set `started`, under any opcode map. -/
theorem stepWith_fault_cases {opc : Mnemonic → Byte} {s t : State} (h : stepWith opc s = .next t) :
    t.fault = s.fault ∨ ∃ f, t = s.start.takeFault f := by
  rcases stepWith_next_cases h with rfl | hfault | ⟨i, he⟩
  · exact Or.inl rfl
  · exact Or.inr hfault
  · exact exec_fault_cases he

/-- Settles O54: a step that changes the fault record took a fault, which halts and leaves all else. -/
theorem faultStepChangesNothingElse : Obligations.FaultStepChangesNothingElse := by
  intro s t h hne
  obtain ⟨f, rfl⟩ := (stepWith_fault_cases h).resolve_left hne
  exact ⟨State.takeFault_run _ _, start_takeFault_sameExcept s f⟩

end Sys2Proof.Machine
end

section
/-! Reset (70_reset_and_hazards.md R140): every register and every cell reads 0, so no register and no cell is unwritten. -/

namespace Sys2Proof.Machine

/-- Every general register reads 0 after reset. -/
@[simp] theorem State.reset_x (i : RegIdx) : State.reset.x i = 0 := by
  fin_cases i <;> rfl

/-- Every cell reads 0 after reset: no cell is listed. -/
@[simp] theorem State.reset_memRead (a : Byte) : State.reset.memRead a = 0 :=
  Memory.read_nil a.toNat

/-- Settles O10: the registers and the cells by their two laws, every other element by its reset value; that `pc` is 0 says
which cell the first opcode is in. -/
theorem resetPutsEveryElementAtItsValue : Obligations.ResetPutsEveryElementAtItsValue := by
  have hpc : State.reset.pc = 0 := rfl
  have hopcode : State.reset.opcodeByte = State.reset.memRead 0 := by rw [State.opcodeByte, hpc]
  exact ⟨State.reset_x, hpc, rfl, rfl, rfl, rfl, rfl, rfl, State.reset_memRead, hopcode⟩

end Sys2Proof.Machine
end
